-- ==== Sys2Proof/Word.lean ====
section
/-! DEFINITION. The byte, the unit of the program and of the three streams (spec/00_scope.md R12). -/

namespace Sys2Proof

/-- A byte is 8 bits; bit 0 is the least significant (R12). -/
abbrev Byte := BitVec 8

end Sys2Proof
end

