-- ==== Sys2Proof/Machine/Moves.lean ====
section
/-! DEFINITION. One move of the environment at a request of the engine (spec/20_memory.md R54, R55, spec/43_io.md R113). Kept
apart from the streams so that Config can name it. -/

namespace Sys2Proof.Machine

/-- What the input source does at one request of `,` (R54, R113). -/
inductive InMove where
  /-- It has neither delivered a byte nor reported an end: the step of `,` is held. -/
  | hold
  /-- It delivers a byte: the answer `some(b)`. -/
  | deliver (b : Byte)
  /-- End of input or a read failure: the answer `none`. It need not be final (U12). -/
  | ended
  deriving DecidableEq, Repr, Inhabited

/-- What the output sink does when `.` offers a byte (R55, R113): it may make the engine wait, it cannot refuse. -/
inductive SinkMove where
  /-- It does not take the byte yet: the step of `.` is held. -/
  | hold
  /-- It takes the byte. -/
  | take
  deriving DecidableEq, Repr, Inhabited

end Sys2Proof.Machine
end

