-- ==== Sys2Proof/Machine/Report.lean ====
section
/-! DEFINITION. The three fault kinds, the direction of an out-of-bounds move, and the fault report the engine
writes to its error log (spec/60_exceptions.md R140 to R144, R147). Kept apart from State so that Config can name the report. -/

namespace Sys2Proof.Machine

/-- "exactly three kinds" of fault (R140); the contract's FaultKind. -/
inductive FaultKind where
  /-- `>` at the last tape index or `<` at index 0 (R142), code 1. -/
  | outOfBounds
  /-- `[` whose forward scan is exhausted (R143), code 2. -/
  | missingClosing
  /-- `]` whose backward scan is exhausted (R144), code 3. -/
  | missingOpening
  deriving DecidableEq, Repr

/-- FAULT_DIR (R26, R141): left is code 0, right is code 1. A bracket fault does not use the direction and
records code 0 (R141). -/
inductive Direction where
  | left
  | right
  deriving DecidableEq, Repr

/-- The record a fault appends to the error log: (kind, position, direction) (R56, R147). Positions count from 0 (D10). -/
structure FaultReport where
  kind : FaultKind
  pos : Nat
  dir : Direction
  deriving DecidableEq, Repr

end Sys2Proof.Machine
end

