-- ==== Sys2Proof/Config.lean ====
section
/-! DEFINITION. What is fixed for a machine: the implementation parameters of spec/00_scope.md R5 to R8 as fields of a
configuration, with their values for this hardware, and what the spec leaves open: DiagRender (spec/60_exceptions.md R149) and
the environment's answers (spec/20_memory.md R54, R55). -/

namespace Sys2Proof

/-- The parameters. The overflow policy is none of them: it is wrapping always (R7). -/
structure Config where
  /-- CELLW, the width of a cell in bits (R6, D1, U1). -/
  cellW : Nat
  /-- TAPE_LEN, the number of cells of the tape (R5, D3, U16). -/
  tapeLen : Nat
  /-- PCW, the width of the program counter in bits (R8, D4). -/
  pcW : Nat
  deriving DecidableEq, Repr

/-- The legal values of CELLW (R6). -/
def Config.legalCellW : List Nat := [8, 16, 32]

/-- The legal configurations: the third column of R8's table. -/
abbrev Config.legal (c : Config) : Prop := c.cellW ∈ Config.legalCellW ∧ 1 ≤ c.tapeLen ∧ 1 ≤ c.pcW

/-- This hardware: CELLW 32, TAPE_LEN 30000, PCW 32 (R5, R6, R8; log 11, DEDUCED, unsafe). -/
def Config.hw : Config where
  cellW := 32
  tapeLen := 30000
  pcW := 32

/-- DPW, the least width with 2^DPW >= TAPE_LEN (R8, D5). -/
def Config.dpW (c : Config) : Nat := if c.tapeLen ≤ 1 then 0 else Nat.log2 (c.tapeLen - 1) + 1

/-- The largest PROG_LEN, 2^PCW - 1, so that PROG_LEN itself fits the program counter (R8, R171). -/
def Config.maxProgLen (c : Config) : Nat := 2 ^ c.pcW - 1

/-- A cell is a vector of CELLW bits (R12, R23). -/
abbrev Cell (c : Config) := BitVec c.cellW

/-- DiagRender: the bytes of the diagnostic line for a report (R149). OPEN: the spec gives no text, so this is a
free value, of which a model may assume only that it is a function of the report (log 10, DESIGN CHOICE, safe). -/
opaque Config.diagRender : Machine.FaultReport → List Byte

/-- The answers of an input source of which nothing is known, in order: any sequence whatever, endless (R54: "every sequence of
answers"; log 5, DESIGN CHOICE, safe). -/
opaque Config.inputAnswer : Nat → Machine.InMove

/-- The moves of an output sink of which nothing is known, in order (R55, R113; log 5, DESIGN CHOICE, safe). -/
opaque Config.sinkMove : Nat → Machine.SinkMove

end Sys2Proof
end

