-- ==== Sys2Proof/Machine/Memory.lean ====
section
/-! DEFINITION. A memory as a sparse list of (address, value) pairs in one canonical form: addresses strictly rising, no
listed value zero. The tape (cells, spec/20_memory.md R42) and the program memory (bytes, R41) are both of this form.
An unlisted address reads zero: for the tape that is the start contents (spec/10_state.md R23, R30); for a program byte the
host never supplied it is the model's choice (log 6, DESIGN CHOICE, unsafe). -/

namespace Sys2Proof.Machine

/-- A memory of `w`-bit units; at width 8 its entries are `Host.Cell`. -/
abbrev Memory (w : Nat) := List (Nat × BitVec w)

/-- The unit at an address. -/
def Memory.read {w : Nat} (m : Memory w) (a : Nat) : BitVec w :=
  match m with
  | [] => 0#w
  | (k, v) :: rest => if a = k then v else Memory.read rest a

/-- Replace the unit at an address, keeping the canonical form; writing zero removes the entry. -/
def Memory.write {w : Nat} (m : Memory w) (a : Nat) (v : BitVec w) : Memory w :=
  match m with
  | [] => if v = 0#w then [] else [(a, v)]
  | (k, x) :: rest =>
    if a < k then (if v = 0#w then (k, x) :: rest else (a, v) :: (k, x) :: rest)
    else if a = k then (if v = 0#w then rest else (a, v) :: rest)
    else (k, x) :: Memory.write rest a v

/-- The canonical form from address `lo` up: addresses strictly rising, no value zero. -/
def Memory.wfFrom {w : Nat} (lo : Nat) : Memory w → Bool
  | [] => true
  | (k, v) :: rest => decide (lo ≤ k) && decide (v ≠ 0#w) && Memory.wfFrom (k + 1) rest

/-- The canonical form. -/
def Memory.wf {w : Nat} (m : Memory w) : Bool := Memory.wfFrom 0 m

/-- Every listed address lies below `n`, the size of the address space. -/
def Memory.within {w : Nat} (n : Nat) (m : Memory w) : Bool := m.all fun e => decide (e.1 < n)

/-- The memory that holds a sequence of units at consecutive addresses from `a` and nothing else. -/
def Memory.ofListFrom {w : Nat} (a : Nat) : List (BitVec w) → Memory w
  | [] => []
  | v :: rest =>
    if v = 0#w then Memory.ofListFrom (a + 1) rest else (a, v) :: Memory.ofListFrom (a + 1) rest

/-- The memory that holds a sequence of units from address 0. -/
def Memory.ofList {w : Nat} (vs : List (BitVec w)) : Memory w := Memory.ofListFrom 0 vs

end Sys2Proof.Machine
end

