-- ==== Sys2Proof/Machine/Streams.lean ====
section
/-! DEFINITION. The environment's side of the streams as plain data (spec/20_memory.md R54 to R56, spec/43_io.md R113). An
answer of the input source and a move of the output sink are free inputs of the step; a state says which are to come, so a
claim about every state is a claim about every sequence of answers (log 5, DESIGN CHOICE, safe). -/

namespace Sys2Proof.Machine

/-- What a stream's far side does after its listed moves. The spec leaves open how long it goes on: R40 calls the source
"exhaustible", R54 speaks of every sequence of answers. The model takes the wider reading: a source may deliver bytes for
ever (log 5, DESIGN CHOICE, safe). -/
inductive Tail (α : Type) where
  /-- These moves in turn, over and over. -/
  | repeats (first : α) (rest : List α)
  /-- Moves of which nothing is known: those of the opaque sequence of Config from place `n` on. -/
  | unknown (n : Nat)
  deriving DecidableEq, Repr

/-- A stream's far side: its coming moves, the next one first, and what follows them. -/
structure Stream (α : Type) where
  moves : List α
  after : Tail α
  deriving DecidableEq, Repr

/-- The move at this request, and the stream after it; `seq` is the sequence behind an unknown tail. -/
def Stream.next {α : Type} (seq : Nat → α) (k : Stream α) : α × Stream α :=
  match k.moves, k.after with
  | m :: rest, after => (m, ⟨rest, after⟩)
  | [], .repeats m rest => (m, ⟨rest, .repeats m rest⟩)
  | [], .unknown n => (seq n, ⟨[], .unknown (n + 1)⟩)

/-- The input source (R54). -/
abbrev InSource := Stream InMove

/-- The output sink (R55). -/
abbrev OutSink := Stream SinkMove

/-- A source that never answers again (R175 (b)). -/
abbrev Tail.silent : Tail InMove := .repeats .hold []

/-- A source that answers `none` from now on, as the finite simulator of R54 does. -/
abbrev Tail.exhausted : Tail InMove := .repeats .ended []

/-- A sink that takes every byte. -/
abbrev Tail.takesAll : Tail SinkMove := .repeats .take []

/-- A sink that never takes a byte again (R175 (c)). -/
abbrev Tail.blocks : Tail SinkMove := .repeats .hold []

/-- The finite-sequence simulator of R54: these bytes, then `none` for ever. -/
def InSource.ofBytes (bs : List Byte) : InSource := ⟨bs.map InMove.deliver, .exhausted⟩

/-- The source's move at this request, and the source after it. -/
def InSource.poll (k : InSource) : InMove × InSource := Stream.next Config.inputAnswer k

/-- The sink's move at this offer, and the sink after it. -/
def OutSink.poll (k : OutSink) : SinkMove × OutSink := Stream.next Config.sinkMove k

/-- The error-log sink the host supplied (R56): one that keeps the bytes, or a discarding one. -/
inductive ErrSink where
  | kept
  | discarded
  deriving DecidableEq, Repr

end Sys2Proof.Machine
end

