-- ==== Sys2Proof/Machine/State.lean ====
section
/-! DEFINITION. The state of the engine (spec/10_state.md R20 to R32), the reasons a step can stop, and the state after
reset (spec/70_reset_and_hazards.md R178). -/

namespace Sys2Proof.Machine

/-- STATUS (R26). -/
inductive Status where
  /-- Code 0: before the first start event, or after `rst` (R178). -/
  | idle
  /-- Code 1: from a start event until the step that halts. -/
  | running
  /-- Code 2: the outcome "completed" (R85). -/
  | done
  /-- Code 3: a fault outcome whose kind is FAULT_KIND (R147). -/
  | fault
  deriving DecidableEq, Repr

/-- The whole state (R32) of the engine at a configuration, which is this hardware's where none is named, with the host's and
the environment's data it reads. Registers whose width is a parameter are naturals: none of them ever wraps (R8, log 1, DESIGN
CHOICE, safe). -/
structure State (c : Config := Config.hw) where
  /-- STATUS (R26). -/
  status : Status
  /-- The program counter (R21). -/
  pc : Nat
  /-- The data pointer (R22). -/
  dp : Nat
  /-- The tape (R23): cell index and cell. -/
  tape : Memory c.cellW
  /-- The program memory (R24, R41): byte index and byte, the entries being `Host.Cell`. -/
  prog : Memory 8
  /-- PROG_LEN (R26). -/
  progLen : Nat
  /-- FAULT_KIND (R26): none is code 0. -/
  faultKind : Option FaultKind
  /-- FAULT_POS (R26). -/
  faultPos : Nat
  /-- FAULT_DIR (R26). -/
  faultDir : Direction
  /-- The input source's coming answers (R54). -/
  input : InSource
  /-- IN_POS, the input bytes consumed so far (R29). -/
  inPos : Nat
  /-- The output sink's coming moves (R55). -/
  sink : OutSink
  /-- OUT, the bytes appended so far, in order (R29). -/
  out : List Byte
  /-- Whether the error-log sink keeps what it is given (R56). -/
  errSink : ErrSink
  /-- ERRLOG, the fault reports appended so far (R29, R147). -/
  errlog : List FaultReport
  deriving DecidableEq, Repr

/-- Why a step stops outside the spec. The engine's own three faults are not among them: a fault entry is described by
R147, so the machine takes it as a next state. Neither reason arises in a state that meets the invariant of R31. -/
inductive Fault where
  /-- Raised by the instructions that touch the tape when dp is not below TAPE_LEN, an address the tape space does not
  have (R42, R43). Safe: the spec's engine is never in such a state (R22). -/
  | tapeAddress
  /-- Raised by the fetch when pc is above PROG_LEN, an index the program space does not have (R41). Safe: the spec's engine
  is never in such a state (R31). -/
  | programAddress
  deriving DecidableEq, Repr

/-- Why something is given no meaning. -/
inductive Refusal where
  /-- An instruction without a meaning yet. No arm of exec answers it. Safe. -/
  | notModelled (mnemonic : String)
  /-- Raised by the host's start event for a program longer than 2^PCW - 1 bytes: "a model refuses it at launch" (R171, U6).
  Safe. -/
  | programTooLong
  /-- Raised by the host's start event while STATUS is RUNNING, which is "outside the contract" (R179, U8). Safe. -/
  | startWhileRunning
  deriving DecidableEq, Repr

/-- The engine right after `rst`: STATUS is IDLE (R178). The spec leaves every other piece unspecified until the next start
event, which defines all of it (R30, R170); the model names its start value for each (log 2, DESIGN CHOICE, unsafe), and for
the streams that the host has not presented yet an empty input, a sink that takes every byte and an error log that is kept (log 4, DESIGN CHOICE,
unsafe). -/
def State.initial {c : Config} : State c where
  status := .idle
  pc := 0
  dp := 0
  tape := []
  prog := []
  progLen := 0
  faultKind := none
  faultPos := 0
  faultDir := .left
  input := ⟨[], .exhausted⟩
  inPos := 0
  sink := ⟨[], .takesAll⟩
  out := []
  errSink := .kept
  errlog := []

/-- This hardware right after reset (R178; log 2 and log 4, DESIGN CHOICE, unsafe). -/
def State.reset : State := State.initial

end Sys2Proof.Machine
end

