-- ==== Sys2Proof/Machine/Ops.lean ====
section
/-! DEFINITION. The named operations on the state: the advance and the jump of the program counter, the tape access check,
the stream requests, completion, and the one entry of a fault (spec/40_dispatch.md R82, R85; spec/20_memory.md R43, R54 to
R56; spec/60_exceptions.md R147, R148). There is no return from a fault (R150): nothing stands beside its entry. -/

namespace Sys2Proof.Machine

variable {c : Config}

/-- `next_pc = pc + 1` (R82). -/
def State.advance (s : State c) : State c := { s with pc := s.pc + 1 }

/-- `next_pc = m + 1` for a match `m`: the jump lands on the match and the loop's unconditional advance follows (R82, C4). -/
def State.jump (m : Nat) (s : State c) : State c := { s with pc := m + 1 }

/-- `dp <- v` (R13). -/
def State.setDp (v : Nat) (s : State c) : State c := { s with dp := v }

/-- `MemWrite(dp, 1, v)` (R43). -/
def State.putCell (v : Cell c) (s : State c) : State c := { s with tape := s.tape.write s.dp v }

/-- A tape access requires 0 <= dp < TAPE_LEN (R43), which always holds in the spec's engine (R22); elsewhere the model
stops by name (log 9, DESIGN CHOICE, safe). -/
def onTape (s : State c) (o : Host.Outcome (State c) Fault Refusal) : Host.Outcome (State c) Fault Refusal :=
  if s.dp < c.tapeLen then o else .fault .tapeAddress

/-- `OutWrite(b)` (R55): the sink takes the byte, which is appended to OUT, or it makes the engine wait (R113). It
cannot fail (log 15, DEDUCED, unsafe). -/
def outWrite (b : Byte) (s : State c) : SinkMove × State c :=
  match s.sink.poll with
  | (.take, k) => (.take, { s with sink := k, out := s.out ++ [b] })
  | (.hold, k) => (.hold, { s with sink := k })

/-- `InRead()` (R54): an answer `some(b)` adds 1 to IN_POS, `none` does not, and no answer yet is a wait (R113). -/
def inRead (s : State c) : InMove × State c :=
  match s.input.poll with
  | (.deliver b, k) => (.deliver b, { s with input := k, inPos := s.inPos + 1 })
  | (.ended, k) => (.ended, { s with input := k })
  | (.hold, k) => (.hold, { s with input := k })

/-- `halt completed` (R85): STATUS <- DONE; everything else keeps its value. -/
def State.complete (s : State c) : State c := { s with status := .done }

/-- Fault entry (R147): `ErrWrite(r)`, FAULT_KIND, FAULT_POS and FAULT_DIR from `r`, STATUS <- FAULT. Nothing else changes: the
fault is precise and the faulting instruction has no effect (R148). The report is appended to ERRLOG whether or not the sink
keeps it, as R31 says of every FAULT state (log 8, DEDUCED, safe); what the host sees of it is `State.reportsSeen`. -/
def State.raise (r : FaultReport) (s : State c) : State c :=
  { s with
    errlog := s.errlog ++ [r]
    faultKind := some r.kind
    faultPos := r.pos
    faultDir := r.dir
    status := .fault }

end Sys2Proof.Machine
end

