-- ==== Sys2Proof/Machine/Operands.lean ====
section
/-! DEFINITION. The operand forms, all implicit (spec/30_encoding.md R63): the cell at the data pointer, the moved data
pointer, and the two conversions between a byte and a cell. Each is written for a general cell width or tape length (R5, R6). -/

namespace Sys2Proof.Machine

variable {c : Config}

/-- `MemRead(dp, 1)`: the cell at the pointer, the one addressing mode (R43). -/
def State.cell (s : State c) : Cell c := s.tape.read s.dp

/-- One more, modulo 2^w (R100, R102). -/
def cellInc {w : Nat} (v : BitVec w) : BitVec w := v + 1

/-- One less, modulo 2^w (R101, R102). -/
def cellDec {w : Nat} (v : BitVec w) : BitVec w := v - 1

/-- The cell for an input byte: `sext` from 8 bits to the cell width (R12, R111, R112; log 16, UNVERIFIED, unsafe). -/
def cellOfByte (w : Nat) (b : Byte) : BitVec w := b.signExtend w

/-- The output byte of a cell: its low 8 bits, `v[7:0]` (R110). -/
def byteOfCell {w : Nat} (v : BitVec w) : Byte := v.setWidth 8

/-- The data pointer one to the right on a tape of `n` cells; none at the last index (R90). -/
def moveRight (n dp : Nat) : Option Nat := if dp = n - 1 then none else some (dp + 1)

/-- The data pointer one to the left; none at index 0 (R91). -/
def moveLeft (dp : Nat) : Option Nat := if dp = 0 then none else some (dp - 1)

end Sys2Proof.Machine
end

