-- ==== Sys2Proof/Machine/CellArith.lean ====
section
/-! DEFINITION. The cell arithmetic instructions `+` and `-` (spec/42_cell_arith.md R100 to R102): wrapping, no flag, no
fault. -/

namespace Sys2Proof.Machine

variable {c : Config}

/-- INC (R100). -/
def execInc (s : State c) : Host.Outcome (State c) Fault Refusal :=
  onTape s (.next (s.putCell (cellInc s.cell)).advance)

/-- DEC (R101). -/
def execDec (s : State c) : Host.Outcome (State c) Fault Refusal :=
  onTape s (.next (s.putCell (cellDec s.cell)).advance)

end Sys2Proof.Machine
end

