-- ==== Sys2Proof/Machine/Flags.lean ====
section
/-! DEFINITION. The engine has no flags (spec/10_state.md R25). The only condition is the zero test of `[` and `]`, made on the
cell when the instruction executes and stored nowhere. -/

namespace Sys2Proof.Machine

/-- The zero test: all bits of the cell are 0 (R102). -/
def isZero {w : Nat} (v : BitVec w) : Bool := decide (v = 0#w)

end Sys2Proof.Machine
end

