-- ==== Sys2Proof/Syntax.lean ====
section
/-! DEFINITION. The instruction set: one constructor per row of spec/opcode_table.json (spec/30_encoding.md R61, R62). -/

namespace Sys2Proof

/-- The eight recognised instructions and NOP. None has an operand field: the operands are implicit (R63). -/
inductive Instr where
  /-- RIGHT `>` (R90). -/
  | right
  /-- LEFT `<` (R91). -/
  | left
  /-- INC `+` (R100). -/
  | inc
  /-- DEC `-` (R101). -/
  | dec
  /-- OUT `.` (R110). -/
  | out
  /-- IN `,` (R111). -/
  | inp
  /-- LOOP `[` (R120). -/
  | loop
  /-- ENDLOOP `]` (R121). -/
  | endloop
  /-- NOP (R83): any byte other than the eight (R62). The byte is kept so that encoding it gives it back; it is not
  interpreted (log 17, DESIGN CHOICE, safe). -/
  | nop (byte : Byte)
  deriving DecidableEq, Repr

end Sys2Proof
end

