-- ==== Sys2Proof/WellFormed.lean ====
section
/-! DEFINITION. The one check an instruction term needs: a NOP's byte is none of the eight recognised values
(spec/30_encoding.md R62, R64). -/

namespace Sys2Proof

/-- The byte values of the eight recognised instructions, in the order of the source's table (R61). -/
def recognisedBytes : List Byte := [0x3E, 0x3C, 0x2B, 0x2D, 0x2E, 0x2C, 0x5B, 0x5D]

/-- The instruction is a term the encoding admits: only a NOP carries a byte, one of the 248 others (R62). -/
def Instr.wf : Instr → Bool
  | .right | .left | .inc | .dec | .out | .inp | .loop | .endloop => true
  | .nop b => !recognisedBytes.contains b

end Sys2Proof
end

