-- ==== Sys2Proof/Decode.lean ====
section
/-! DEFINITION. The decoder, total on every byte (spec/30_encoding.md R64, R65: no byte value is invalid), and the encoder. -/

namespace Sys2Proof

/-! The byte values of R61 (ASCII, log 12, PRESUMED, unsafe). -/

def opRight : Byte := 0x3E
def opLeft : Byte := 0x3C
def opInc : Byte := 0x2B
def opDec : Byte := 0x2D
def opOut : Byte := 0x2E
def opIn : Byte := 0x2C
def opLoop : Byte := 0x5B
def opEndloop : Byte := 0x5D

/-- Decoding compares the byte with the eight values and is NOP otherwise (R64). Nothing is rejected (R65). -/
def decode (b : Byte) : Instr :=
  if b = opRight then .right
  else if b = opLeft then .left
  else if b = opInc then .inc
  else if b = opDec then .dec
  else if b = opOut then .out
  else if b = opIn then .inp
  else if b = opLoop then .loop
  else if b = opEndloop then .endloop
  else .nop b

/-- The one byte of an instruction (R60, R61, R67). -/
def encode : Instr → Byte
  | .right => opRight
  | .left => opLeft
  | .inc => opInc
  | .dec => opDec
  | .out => opOut
  | .inp => opIn
  | .loop => opLoop
  | .endloop => opEndloop
  | .nop b => b

/-- The byte value of a program character: its ASCII code (R61, R67; log 12, PRESUMED, unsafe). The spec leaves the character
set open (N6) and has no multi-byte decoding (D26): a character that is not ASCII has no byte here (log 19, DESIGN CHOICE, safe).
The machine itself is given bytes and never a character. -/
def byteOfChar (c : Char) : Option Byte := if c.toNat < 128 then some (BitVec.ofNat 8 c.toNat) else none

/-- The program text is the machine code: the bytes of its characters in order, with no labels and no directives (R67). -/
def assemble (text : List Char) : Option (List Byte) := text.mapM byteOfChar

/-- The first byte of an instruction word numbered as spec/opcode_table.json numbers it; bits above `nbits` are 0. -/
def tableByte (nbits w : Nat) : Byte := BitVec.ofNat 8 (w % 2 ^ nbits)

/-- What the decoder reads from a table word: every instruction is its one byte (R60) and none is refused (R65). -/
def decodeTableWord (nbits w : Nat) : Option Instr := some (decode (tableByte nbits w))

end Sys2Proof
end

