-- ==== Sys2Proof/Machine/Scan.lean ====
section
/-! DEFINITION. The bracket-jump scanner (spec/44_loop.md R122 to R126). One iteration is the machine of R124: test for
exhaustion, move SCAN_POS, read one program byte, update DEPTH, test DEPTH for zero. SCAN_POS and DEPTH (spec/10_state.md R28)
are the arguments `scanPos` and `depth`; they do not survive the scan (log 13, DESIGN CHOICE, safe). The scan reads the
program only. -/

namespace Sys2Proof.Machine

/-- DEPTH after a forward scan examines byte `c`: `[` increments, `]` decrements, anything else leaves it (R122, R66, C1). -/
def depthFwd (c : Byte) (depth : Nat) : Nat :=
  if c = opLoop then depth + 1 else if c = opEndloop then depth - 1 else depth

/-- DEPTH after a backward scan examines byte `c`: `]` increments, `[` decrements (R123, C1). -/
def depthBwd (c : Byte) (depth : Nat) : Nat :=
  if c = opEndloop then depth + 1 else if c = opLoop then depth - 1 else depth

/-- The loop of R122. `left` counts the characters from SCAN_POS + 1 to the last index of the program: the scan is exhausted
exactly when SCAN_POS is the last index, that is when none is left. -/
def scanFwd (prog : Memory 8) (left scanPos depth : Nat) : Option Nat :=
  match left with
  | 0 => none
  | left + 1 =>
    let depth' := depthFwd (prog.read (scanPos + 1)) depth
    if depth' = 0 then some (scanPos + 1) else scanFwd prog left (scanPos + 1) depth'

/-- `MatchFwd(p)` (R122): the match of the `[` at `p`, or none when the scan is exhausted. -/
def matchFwd (prog : Memory 8) (progLen p : Nat) : Option Nat := scanFwd prog (progLen - 1 - p) p 1

/-- The loop of R123: exhausted exactly when SCAN_POS is 0. -/
def scanBwd (prog : Memory 8) (scanPos depth : Nat) : Option Nat :=
  match scanPos with
  | 0 => none
  | scanPos + 1 =>
    let depth' := depthBwd (prog.read scanPos) depth
    if depth' = 0 then some scanPos else scanBwd prog scanPos depth'

/-- `MatchBwd(p)` (R123): the match of the `]` at `p`, or none when the scan is exhausted. -/
def matchBwd (prog : Memory 8) (p : Nat) : Option Nat := scanBwd prog p 1

end Sys2Proof.Machine
end

