-- ==== Sys2Proof/Machine/Loop.lean ====
section
/-! DEFINITION. The loop instructions `[` and `]` (spec/44_loop.md R120, R121). The cell, the data pointer and the streams are
not changed; a fault needs a scan that is made and exhausted (R125). -/

namespace Sys2Proof.Machine

variable {c : Config}

/-- Jump one past the match, or raise the bracket fault with the position of the bracket itself when the scan is exhausted
(R82, R143, R144). The direction is not used and recorded as code 0 (R141; log 18, DESIGN CHOICE, safe). -/
def jumpPast (kind : FaultKind) (found : Option Nat) (s : State c) : Host.Outcome (State c) Fault Refusal :=
  match found with
  | some m => .next (s.jump m)
  | none => .next (s.raise ⟨kind, s.pc, .left⟩)

/-- LOOP (R120). -/
def execLoop (s : State c) : Host.Outcome (State c) Fault Refusal :=
  onTape s
    (if isZero s.cell then jumpPast .missingClosing (matchFwd s.prog s.progLen s.pc) s
    else .next s.advance)

/-- ENDLOOP (R121). -/
def execEndloop (s : State c) : Host.Outcome (State c) Fault Refusal :=
  onTape s
    (if isZero s.cell then .next s.advance
    else jumpPast .missingOpening (matchBwd s.prog s.pc) s)

end Sys2Proof.Machine
end

