-- ==== Sys2Proof/Machine/Nop.lean ====
section
/-! DEFINITION. NOP (spec/40_dispatch.md R83). -/

namespace Sys2Proof.Machine

variable {c : Config}

/-- NOP, every byte value other than the eight (R83): only the program counter advances; the byte is not interpreted. -/
def execNop (_byte : Byte) (s : State c) : Host.Outcome (State c) Fault Refusal := .next s.advance

end Sys2Proof.Machine
end

