-- ==== Sys2Proof/Machine/Pointer.lean ====
section
/-! DEFINITION. The data-pointer instructions `>` and `<` (spec/41_pointer.md R90, R91). Neither touches the tape. -/

namespace Sys2Proof.Machine

variable {c : Config}

/-- Move the data pointer to its target and advance, or, where there is no target, raise OutOfBounds with the position of this
instruction and the direction, nothing having been written (R142). -/
def movePointer (dir : Direction) (target : Option Nat) (s : State c) : Host.Outcome (State c) Fault Refusal :=
  match target with
  | some v => .next (s.setDp v).advance
  | none => .next (s.raise ⟨.outOfBounds, s.pc, dir⟩)

/-- RIGHT (R90). -/
def execRight (s : State c) : Host.Outcome (State c) Fault Refusal :=
  movePointer .right (moveRight c.tapeLen s.dp) s

/-- LEFT (R91). -/
def execLeft (s : State c) : Host.Outcome (State c) Fault Refusal :=
  movePointer .left (moveLeft s.dp) s

end Sys2Proof.Machine
end

