-- ==== Sys2Proof/Machine/StreamIo.lean ====
section
/-! DEFINITION. The input and output instructions `,` and `.` (spec/43_io.md R110 to R114). While a stream has not answered,
the step is held: `pc` stays and nothing of the engine changes (R113). -/

namespace Sys2Proof.Machine

variable {c : Config}

/-- OUT (R110): append the low 8 bits of the cell to the output; the cell is not changed. -/
def execOut (s : State c) : Host.Outcome (State c) Fault Refusal :=
  onTape s
    (match outWrite (byteOfCell s.cell) s with
    | (.take, t) => .next t.advance
    | (.hold, t) => .next t)

/-- IN (R111): a byte is stored sign-extended, an end of input or read failure stores 0; the old cell is not read. -/
def execIn (s : State c) : Host.Outcome (State c) Fault Refusal :=
  onTape s
    (match inRead s with
    | (.deliver b, t) => .next (t.putCell (cellOfByte c.cellW b)).advance
    | (.ended, t) => .next (t.putCell 0#c.cellW).advance
    | (.hold, t) => .next t)

end Sys2Proof.Machine
end

