-- ==== Sys2Proof/Machine/Dispatch.lean ====
section
/-! DEFINITION. One arm per instruction (spec/40_dispatch.md R80). -/

namespace Sys2Proof.Machine

def exec (i : Instr) (s : State) : Host.Outcome State Fault Refusal :=
  match i with
  | .right => Sys2Proof.Machine.execRight s
  | .left => Sys2Proof.Machine.execLeft s
  | .inc => Sys2Proof.Machine.execInc s
  | .dec => Sys2Proof.Machine.execDec s
  | .out => Sys2Proof.Machine.execOut s
  | .inp => Sys2Proof.Machine.execIn s
  | .loop => Sys2Proof.Machine.execLoop s
  | .endloop => Sys2Proof.Machine.execEndloop s
  | .nop b => Sys2Proof.Machine.execNop b s

end Sys2Proof.Machine
end

