-- ==== Sys2Proof/Machine/Fetch.lean ====
section
/-! DEFINITION. The top of a step: the halting test, then fetch and decode (spec/40_dispatch.md R80, R81, R85), and what the
engine does while it is not running (spec/70_reset_and_hazards.md R174, R178). -/

namespace Sys2Proof.Machine

variable {c : Config}

/-- What the top of a step decides. -/
inductive Action (c : Config) where
  /-- The step's outcome is settled without an instruction. -/
  | settled (o : Host.Outcome (State c) Fault Refusal)
  /-- This instruction executes. -/
  | run (i : Instr)

/-- `ProgRead(a)`, for 0 <= a < PROG_LEN (R13, R41). -/
def progRead (s : State c) (a : Nat) : Option Byte :=
  if a < s.progLen then some (s.prog.read a) else none

/-- The top of a step. In IDLE, DONE and FAULT the engine does nothing: no fetch, no stream operation, all state frozen (R174,
R178, log 7, DEDUCED, safe). In RUNNING the halting test `pc == PROG_LEN` stands before every fetch (R80, R85); the byte at
`pc` is decoded (R81). Above PROG_LEN there is no byte, and the spec's engine never is there (log 9, DESIGN CHOICE, safe). -/
def action (s : State c) : Action c :=
  match s.status with
  | .idle | .done | .fault => .settled (.next s)
  | .running =>
    if s.pc = s.progLen then .settled (.next s.complete)
    else
      match progRead s s.pc with
      | some b => .run (decode b)
      | none => .settled (.fault .programAddress)

/-- One step (R80, R84), with the executor of the instructions as an argument: what the top of the step settles, or the execution
of the fetched instruction. A wait (R84 (d)) is a next state in which the engine has not moved (log 5, DESIGN CHOICE, safe); a
fault of the spec (R84 (c)) is the next state of its entry (log 8, DEDUCED, safe). -/
def stepBy (run : Instr → State c → Host.Outcome (State c) Fault Refusal) (s : State c) :
    Host.Outcome (State c) Fault Refusal :=
  match action s with
  | .settled o => o
  | .run i => run i s

/-- The state in which this byte is what the next step fetches: it stands at `pc`, the program reaches past it, and the
engine is running (log 3, DESIGN CHOICE, safe). -/
def placeByte (b : Byte) (s : State c) : State c :=
  { s with
    status := .running
    prog := s.prog.write s.pc b
    progLen := max s.progLen (s.pc + 1) }

end Sys2Proof.Machine
end

