-- ==== Sys2Proof/Machine/Step.lean ====
section
/-! DEFINITION. One step of the engine (spec/00_scope.md R14, spec/40_dispatch.md R80, R84). -/

namespace Sys2Proof.Machine

/-- One step of this hardware. -/
def step (s : State) : Host.Outcome State Fault Refusal := stepBy exec s

/-- The state whose next step fetches and runs the instruction of this opcode-table word: its byte placed at `pc` (log 3,
DESIGN CHOICE, safe). -/
def State.withFetchWord (s : State) (nbits w : Nat) : State := placeByte (tableByte nbits w) s

end Sys2Proof.Machine
end

