-- ==== Sys2Proof/Machine/HostPort.lean ====
section
/-! DEFINITION. What the host can do to the engine and read from it: the start event and `rst` (spec/70_reset_and_hazards.md
R170, R171, R178, R179), the status registers and their codes (spec/10_state.md R26, spec/60_exceptions.md R141), the outcome
and the observation (spec/00_scope.md R10, R11), and the bytes of the error log (spec/20_memory.md R56, R149). -/

namespace Sys2Proof.Machine

variable {c : Config}

/-- What the host presents with a start event: the program bytes, whose number is PROG_LEN, and the three streams (R10, R170,
R171). -/
structure Launch where
  program : List Byte
  input : InSource
  sink : OutSink
  errSink : ErrSink
  deriving DecidableEq, Repr

/-- The state at the start of an execution (R30, R170). -/
def startState (l : Launch) : State c where
  status := .running
  pc := 0
  dp := 0
  tape := []
  prog := Memory.ofList l.program
  progLen := l.program.length
  faultKind := none
  faultPos := 0
  faultDir := .left
  input := l.input
  inPos := 0
  sink := l.sink
  out := []
  errSink := l.errSink
  errlog := []

/-- The start event. It needs an engine that is not running (R179) and a program whose length PROG_LEN can hold (R171); it then
defines every piece of state whatever stood there before (R170, R174). Log 14, DESIGN CHOICE, unsafe: the host does not change
the program of a running engine and does not start one. -/
def hostStart (l : Launch) (s : State c) : Host.Outcome (State c) Fault Refusal :=
  if s.status = .running then .refused .startWhileRunning
  else if c.maxProgLen < l.program.length then .refused .programTooLong
  else .next (startState l)

/-- `rst` (R178): IDLE, any execution in progress abandoned, all else as after power-on (log 2, DESIGN CHOICE, unsafe). -/
def hostRst (_s : State c) : State c := State.initial

/-! The registers as the host reads them (R26), with the codes of R26 and R141. -/

def Status.code : Status → BitVec 2
  | .idle => 0
  | .running => 1
  | .done => 2
  | .fault => 3

def faultCode : Option FaultKind → BitVec 2
  | none => 0
  | some .outOfBounds => 1
  | some .missingClosing => 2
  | some .missingOpening => 3

def Direction.code : Direction → BitVec 1
  | .left => 0
  | .right => 1

def State.statusReg (s : State c) : BitVec 2 := s.status.code
def State.faultKindReg (s : State c) : BitVec 2 := faultCode s.faultKind
def State.faultPosReg (s : State c) : BitVec c.pcW := BitVec.ofNat c.pcW s.faultPos
def State.faultDirReg (s : State c) : BitVec 1 := s.faultDir.code
def State.progLenReg (s : State c) : BitVec c.pcW := BitVec.ofNat c.pcW s.progLen

/-- The outcome of an execution (R10). -/
inductive Verdict where
  | completed
  | failed (kind : FaultKind)
  deriving DecidableEq, Repr

/-- The outcome, where there is one: DONE is "completed", FAULT is the kind in FAULT_KIND (R26); an execution that has not
ended has none (R11). -/
def State.verdict (s : State c) : Option Verdict :=
  match s.status with
  | .done => some .completed
  | .fault => s.faultKind.map Verdict.failed
  | .idle | .running => none

/-- The observation of an execution (R11): outcome, output, fault report, input bytes consumed. -/
structure Observation where
  verdict : Option Verdict
  out : List Byte
  report : Option FaultReport
  inPos : Nat
  deriving DecidableEq, Repr

/-- The reports the host finds in its error-log sink: those of ERRLOG in a sink that keeps them, none in a discarding one, to which
`ErrWrite` "has no effect on anything the host sees" (R56, D25, U3). -/
def State.reportsSeen (s : State c) : List FaultReport :=
  match s.errSink with
  | .kept => s.errlog
  | .discarded => []

/-- What the host observes in a state: the outcome, the output, the fault report in the error-log sink if any (R11, R56), and the
number of input bytes consumed. The tape, the data pointer and the program counter are internal (R11). -/
def State.observe (s : State c) : Observation :=
  { verdict := s.verdict, out := s.out, report := s.reportsSeen.head?, inPos := s.inPos }

/-- The bytes in the error-log sink: the rendering of each report it holds (R56, R149). -/
def State.errorLogBytes (s : State c) : List Byte := s.reportsSeen.flatMap Config.diagRender

end Sys2Proof.Machine
end

