-- ==== Sys2Proof/Machine/JumpTable.lean ====
section
/-! DEFINITION. The jump table of spec/44_loop.md R127, an allowed implementation of the scan: one linear pre-pass over the
program that maps each bracket position to its match. The step does not use it; a statement says it agrees with the scan. -/

namespace Sys2Proof.Machine

/-- The pre-pass from position `p` with `left` characters to go and the positions of the `[` still open, the innermost first:
the pairs (position of a `[`, position of its `]`). An unmatched bracket has no pair and raises nothing here (R125, R127). -/
def jumpTableFrom (prog : Memory 8) (left p : Nat) (opened : List Nat) : List (Nat × Nat) :=
  match left with
  | 0 => []
  | left + 1 =>
    if prog.read p = opLoop then jumpTableFrom prog left (p + 1) (p :: opened)
    else if prog.read p = opEndloop then
      match opened with
      | [] => jumpTableFrom prog left (p + 1) []
      | o :: rest => (o, p) :: jumpTableFrom prog left (p + 1) rest
    else jumpTableFrom prog left (p + 1) opened

/-- The table of a whole program. -/
def jumpTable (prog : Memory 8) (progLen : Nat) : List (Nat × Nat) := jumpTableFrom prog progLen 0 []

/-- The match the table gives for a `[` at `p`. -/
def tableFwd (table : List (Nat × Nat)) (p : Nat) : Option Nat :=
  (table.find? fun e => e.1 == p).map Prod.snd

/-- The match the table gives for a `]` at `p`. -/
def tableBwd (table : List (Nat × Nat)) (p : Nat) : Option Nat :=
  (table.find? fun e => e.2 == p).map Prod.fst

end Sys2Proof.Machine
end

