-- ==== Sys2Proof/Machine/Parametric.lean ====
section
/-! DEFINITION. The engine at any configuration (spec/00_scope.md R5, R6, R8: "a model takes it as a configuration field"). The
meanings are those of `exec`, which is this executor at the configuration of this hardware. -/

namespace Sys2Proof.Machine

variable {c : Config}

/-- The effect of an instruction at any configuration. -/
def execAt (i : Instr) (s : State c) : Host.Outcome (State c) Fault Refusal :=
  match i with
  | .right => execRight s
  | .left => execLeft s
  | .inc => execInc s
  | .dec => execDec s
  | .out => execOut s
  | .inp => execIn s
  | .loop => execLoop s
  | .endloop => execEndloop s
  | .nop b => execNop b s

/-- One step at any configuration. -/
def stepAt (s : State c) : Host.Outcome (State c) Fault Refusal := stepBy execAt s

/-- The machine at a configuration, with its state after `rst` (R178). -/
def machineAt (c : Config) : Host.Core :=
  { State := State c, Fault := Fault, Refusal := Refusal, step := stepAt, reset := State.initial }

end Sys2Proof.Machine
end

