-- ==== Sys2Proof/Safety.lean ====
section
/-! DEFINITION. The terms claims use: the invariant of spec/10_state.md R31, the bracket counts of spec/44_loop.md R126, the
well-formed programs of R129, and the execution of an instruction several times over. -/

namespace Sys2Proof.Machine

variable {c : Config}

/-- In the state FAULT, `program[pc]` is the instruction that faulted and the condition of R141's table holds: the row of
FAULT_KIND and FAULT_DIR. -/
def State.faultExplained (s : State c) : Bool :=
  match s.faultKind, s.faultDir with
  | some .outOfBounds, .right => decide (decode (s.prog.read s.pc) = .right) && decide (s.dp = c.tapeLen - 1)
  | some .outOfBounds, .left => decide (decode (s.prog.read s.pc) = .left) && decide (s.dp = 0)
  | some .missingClosing, .left =>
    decide (decode (s.prog.read s.pc) = .loop) && isZero s.cell && (matchFwd s.prog s.progLen s.pc).isNone
  | some .missingOpening, .left =>
    decide (decode (s.prog.read s.pc) = .endloop) && !isZero s.cell && (matchBwd s.prog s.pc).isNone
  | _, _ => false

/-- The invariant of R31, by STATUS, with the ranges of PROG_LEN (R8) and dp (R22) and the canonical form of the two memories.
In IDLE the spec leaves the rest unspecified (R30, R178). -/
abbrev State.Inv (s : State c) : Prop :=
  s.dp < c.tapeLen ∧
  s.progLen ≤ c.maxProgLen ∧
  s.tape.wf = true ∧ s.tape.within c.tapeLen = true ∧ s.prog.wf = true ∧
  (s.status = .running →
    s.pc ≤ s.progLen ∧ s.faultKind = none ∧ s.faultPos = 0 ∧ s.faultDir = .left ∧ s.errlog = []) ∧
  (s.status = .done →
    s.pc = s.progLen ∧ s.faultKind = none ∧ s.faultPos = 0 ∧ s.faultDir = .left ∧ s.errlog = []) ∧
  (s.status = .fault →
    s.pc < s.progLen ∧ s.faultPos = s.pc ∧ s.faultExplained = true ∧
    (s.errlog.map fun r => (some r.kind, r.pos, r.dir)) = [(s.faultKind, s.faultPos, s.faultDir)])

/-- The number of positions from `lo` up to, not including, `lo + n` that hold the byte `c`. -/
def countBytes (prog : Memory 8) (c : Byte) (lo : Nat) : Nat → Nat
  | 0 => 0
  | n + 1 => countBytes prog c lo n + (if prog.read (lo + n) = c then 1 else 0)

/-- `bal(p, s)` (R126): the number of `[` less the number of `]` in `program[p+1 .. s]`. -/
def bal (prog : Memory 8) (p s : Nat) : Int :=
  (countBytes prog opLoop (p + 1) (s - p) : Int) - countBytes prog opEndloop (p + 1) (s - p)

/-- `lab(s, p)` (R126): the number of `]` less the number of `[` in `program[s .. p-1]`. -/
def lab (prog : Memory 8) (s p : Nat) : Int :=
  (countBytes prog opEndloop s (p - s) : Int) - countBytes prog opLoop s (p - s)

/-- A well-formed program (R129): every prefix has at least as many `[` as `]`, and the whole has equally many. -/
def wellFormedProgram (prog : Memory 8) (progLen : Nat) : Prop :=
  (∀ n, n ≤ progLen → countBytes prog opEndloop 0 n ≤ countBytes prog opLoop 0 n) ∧
  countBytes prog opEndloop 0 progLen = countBytes prog opLoop 0 progLen

/-- The effect of executing one instruction `n` times in a row, each on the state the one before it left. -/
def execTimes (i : Instr) : Nat → State → Host.Outcome State Fault Refusal
  | 0, s => .next s
  | n + 1, s =>
    match exec i s with
    | .next t => execTimes i n t
    | .fault r => .fault r
    | .refused r => .refused r

end Sys2Proof.Machine
end

