-- ==== Sys2Proof/Certificates/Slice0/Obligations.lean ====
section
/-! DEFINITION. The statements for the provers, from the numbered rules of spec/. Reading aids: `exec i s` is the effect of
instruction `i`, `step s` one step of the engine, `.next t` a next state; a record `{ s with … }` says that every other piece
of state is unchanged. -/

open Sys2Proof Sys2Proof.Machine

/-! ## Encoding -/

/-- Decoding the encoding of a well-formed instruction gives it back, and the instruction that a byte decodes to is
well-formed and encodes to that byte: bytes and well-formed instructions correspond one to one (R60, R61, R62, R64). -/
def Obligations.EncodedInstructionsDecodeBack : Prop :=
  (∀ i : Instr, i.wf = true → decode (encode i) = i) ∧
  ∀ b : Byte, (decode b).wf = true ∧ encode (decode b) = b

/-- The eight rows of R61's table: each character has the byte written out in binary, which decodes to its instruction. The byte
values are ASCII, which the spec supplies from general knowledge (K1, log 12). -/
def Obligations.TableBytesDecode : Prop :=
  (byteOfChar '>' = some 0b00111110 ∧ decode 0b00111110 = .right) ∧
  (byteOfChar '<' = some 0b00111100 ∧ decode 0b00111100 = .left) ∧
  (byteOfChar '+' = some 0b00101011 ∧ decode 0b00101011 = .inc) ∧
  (byteOfChar '-' = some 0b00101101 ∧ decode 0b00101101 = .dec) ∧
  (byteOfChar '.' = some 0b00101110 ∧ decode 0b00101110 = .out) ∧
  (byteOfChar ',' = some 0b00101100 ∧ decode 0b00101100 = .inp) ∧
  (byteOfChar '[' = some 0b01011011 ∧ decode 0b01011011 = .loop) ∧
  (byteOfChar ']' = some 0b01011101 ∧ decode 0b01011101 = .endloop)

/-- Every other byte value is NOP, and there are 248 of them (R62). -/
def Obligations.OtherBytesAreNop : Prop :=
  (∀ b : Byte, b ∉ recognisedBytes → decode b = .nop b) ∧
  ((List.range 256).filter fun n => !recognisedBytes.contains (BitVec.ofNat 8 n)).length = 248

/-! ## Reset, start event and the host's registers -/

/-- After `rst` STATUS is IDLE, and in IDLE a step does nothing: nothing is fetched and no stream is touched (R178). -/
def Obligations.ResetLeavesIdleEngine : Prop :=
  State.reset.status = .idle ∧ (∀ s : State, (hostRst s).status = .idle) ∧
  ∀ s : State, s.status = .idle → step s = .next s

/-- The state after reset meets the invariant. The values of all fields but STATUS are the model's choice (log 2, log 4). -/
def Obligations.ResetMeetsInvariant : Prop := State.reset.Inv

/-- The start event (R170) sets every cell to 0, dp and pc to 0, STATUS to RUNNING, the fault registers to 0, IN_POS to 0, OUT
and ERRLOG to empty, and takes the program, PROG_LEN and the three streams as presented; the state before leaves no
trace. -/
def Obligations.StartEventDefinesState : Prop :=
  ∀ l : Launch, l.program.length ≤ Config.hw.maxProgLen →
    ∃ t : State, (∀ s : State, s.status ≠ .running → hostStart l s = .next t) ∧
      (∀ a, t.tape.read a = 0) ∧ t.dp = 0 ∧ t.pc = 0 ∧ t.status = .running ∧
      t.faultKind = none ∧ t.faultPos = 0 ∧ t.faultDir = .left ∧
      (∀ i : Fin l.program.length, t.prog.read i = l.program[i]) ∧ t.progLen = l.program.length ∧
      t.input = l.input ∧ t.sink = l.sink ∧ t.errSink = l.errSink ∧
      t.inPos = 0 ∧ t.out = [] ∧ t.errlog = []

/-- A program longer than 2^PCW - 1 bytes is refused at launch (R171), and a start event while RUNNING, which is outside the
contract (R179), is given no meaning. The refusals' names are the model's (log 14). -/
def Obligations.LaunchIsRefused : Prop :=
  (∀ (l : Launch) (s : State), s.status ≠ .running → 2 ^ 32 - 1 < l.program.length →
    hostStart l s = .refused .programTooLong) ∧
  ∀ (l : Launch) (s : State), s.status = .running → hostStart l s = .refused .startWhileRunning

/-- The codes of STATUS, FAULT_KIND and FAULT_DIR (R26, R141). -/
def Obligations.HostRegisterCodes : Prop :=
  (∀ s : State, s.statusReg =
    match s.status with | .idle => 0 | .running => 1 | .done => 2 | .fault => 3) ∧
  (∀ s : State, s.faultKindReg =
    match s.faultKind with
    | none => 0 | some .outOfBounds => 1 | some .missingClosing => 2 | some .missingOpening => 3) ∧
  (∀ s : State, s.faultDirReg = match s.faultDir with | .left => 0 | .right => 1) ∧
  ∀ s : State, s.Inv →
    (s.status = .fault → s.faultPosReg.toNat = s.pc) ∧ s.progLenReg.toNat = s.progLen

/-! ## The step -/

/-- The instruction a step executes is the byte at pc, decoded (R81); nothing is added around it. -/
def Obligations.StepRunsDecodedInstruction : Prop :=
  ∀ s : State, s.status = .running → s.pc < s.progLen →
    step s = exec (decode (s.prog.read s.pc)) s

/-- At pc = PROG_LEN the execution completes: STATUS becomes DONE and nothing else changes (R85), and the state then stays (a
step that answers the same state, log 7). -/
def Obligations.CompletionAtProgramEnd : Prop :=
  (∀ s : State, s.status = .running → s.pc = s.progLen → step s = .next { s with status := .done }) ∧
  ∀ s : State, s.status = .done → step s = .next s

/-- In IDLE, DONE and FAULT all state is frozen, for any number of steps, and the outcome stands (R174, R178). -/
def Obligations.HaltedEngineStaysFrozen : Prop :=
  ∀ (s : State) (k : Nat), s.status ≠ .running → core.run k s = .next s

/-- Placing an opcode-table word makes it the instruction the very next step runs, and from reset the state so made is the
start state of the one-byte program with the streams of reset (log 3). -/
def Obligations.PlacedWordRunsNext : Prop :=
  (∀ (s : State) (w : Nat), s.prog.wf = true →
    step (s.withFetchWord 8 w) = exec (decode (BitVec.ofNat 8 w)) (s.withFetchWord 8 w)) ∧
  ∀ w : Nat, State.reset.withFetchWord 8 w =
    startState ⟨[BitVec.ofNat 8 w], State.reset.input, State.reset.sink, State.reset.errSink⟩

/-! ## What each instruction does -/

/-- NOP: pc + 1 and nothing else, whatever its byte and the state (R83). -/
def Obligations.NopOnlyAdvances : Prop :=
  ∀ (b : Byte) (s : State), exec (.nop b) s = .next { s with pc := s.pc + 1 }

/-- RIGHT (R90): dp + 1 and pc + 1 unless dp is the last index, where it raises OutOfBounds with the position of this `>` and
direction right, having written nothing else. -/
def Obligations.RightMovesOrFaults : Prop :=
  ∀ s : State,
    (s.dp ≠ Config.hw.tapeLen - 1 → exec .right s = .next { s with dp := s.dp + 1, pc := s.pc + 1 }) ∧
    (s.dp = Config.hw.tapeLen - 1 → exec .right s = .next { s with
      status := .fault, faultKind := some .outOfBounds, faultPos := s.pc, faultDir := .right,
      errlog := s.errlog ++ [⟨.outOfBounds, s.pc, .right⟩] })

/-- LEFT (R91): dp - 1 and pc + 1 unless dp is 0, where it raises OutOfBounds with the position of this `<` and direction left,
having written nothing else. -/
def Obligations.LeftMovesOrFaults : Prop :=
  ∀ s : State,
    (s.dp ≠ 0 → exec .left s = .next { s with dp := s.dp - 1, pc := s.pc + 1 }) ∧
    (s.dp = 0 → exec .left s = .next { s with
      status := .fault, faultKind := some .outOfBounds, faultPos := s.pc, faultDir := .left,
      errlog := s.errlog ++ [⟨.outOfBounds, s.pc, .left⟩] })

/-- INC (R100): the cell at dp becomes its value plus 1 modulo 2^CELLW, pc + 1; every other cell and every other piece of
state, the streams and the fault registers among them, is unchanged. -/
def Obligations.IncAddsOneToCell : Prop :=
  ∀ s : State, s.tape.wf = true → s.dp < Config.hw.tapeLen →
    ∃ t : State, exec .inc s = .next t ∧
      (t.tape.read s.dp).toNat = ((s.tape.read s.dp).toNat + 1) % 2 ^ Config.hw.cellW ∧
      (∀ a, a ≠ s.dp → t.tape.read a = s.tape.read a) ∧
      t = { s with tape := t.tape, pc := s.pc + 1 }

/-- DEC (R101): the cell at dp becomes its value plus 2^CELLW - 1 modulo 2^CELLW, pc + 1; everything else is unchanged. -/
def Obligations.DecSubtractsOneFromCell : Prop :=
  ∀ s : State, s.tape.wf = true → s.dp < Config.hw.tapeLen →
    ∃ t : State, exec .dec s = .next t ∧
      (t.tape.read s.dp).toNat = ((s.tape.read s.dp).toNat + 2 ^ Config.hw.cellW - 1) % 2 ^ Config.hw.cellW ∧
      (∀ a, a ≠ s.dp → t.tape.read a = s.tape.read a) ∧
      t = { s with tape := t.tape, pc := s.pc + 1 }

/-- OUT (R110): when the sink takes the byte, the cell's unsigned value modulo 256 is appended to OUT, pc + 1; the cell and
everything else of the engine is unchanged (`k` is what the sink will do next, the environment's own matter). -/
def Obligations.OutAppendsLowByte : Prop :=
  ∀ s : State, s.dp < Config.hw.tapeLen → s.sink.poll.1 = .take →
    ∃ (b : Byte) (k : OutSink), b.toNat = (s.tape.read s.dp).toNat % 256 ∧
      exec .out s = .next { s with out := s.out ++ [b], pc := s.pc + 1, sink := k }

/-- IN (R111): on `some(b)` the cell at dp becomes `b` sign-extended (its signed value is that of `b`) and IN_POS grows by 1; on
`none` the cell becomes 0 and IN_POS stays; pc + 1; every other cell and everything else of the engine is unchanged (`k` is what
the source will do next, the environment's own matter). -/
def Obligations.InStoresByteOrZero : Prop :=
  ∀ s : State, s.tape.wf = true → s.dp < Config.hw.tapeLen →
    (∀ b : Byte, s.input.poll.1 = .deliver b →
      ∃ (t : State) (k : InSource), exec .inp s = .next t ∧
        (t.tape.read s.dp).toInt = b.toInt ∧
        (∀ a, a ≠ s.dp → t.tape.read a = s.tape.read a) ∧
        t = { s with tape := t.tape, inPos := s.inPos + 1, pc := s.pc + 1, input := k }) ∧
    (s.input.poll.1 = .ended →
      ∃ (t : State) (k : InSource), exec .inp s = .next t ∧
        t.tape.read s.dp = 0 ∧
        (∀ a, a ≠ s.dp → t.tape.read a = s.tape.read a) ∧
        t = { s with tape := t.tape, pc := s.pc + 1, input := k })

/-- LOOP (R120): cell nonzero: pc + 1; cell zero: one past the match of the `[`, or MissingClosingBracket with the position of
this `[`; nothing else changes. -/
def Obligations.LoopEntersSkipsOrFaults : Prop :=
  ∀ s : State, s.dp < Config.hw.tapeLen →
    (s.tape.read s.dp ≠ 0 → exec .loop s = .next { s with pc := s.pc + 1 }) ∧
    (s.tape.read s.dp = 0 → ∀ m, matchFwd s.prog s.progLen s.pc = some m →
      exec .loop s = .next { s with pc := m + 1 }) ∧
    (s.tape.read s.dp = 0 → matchFwd s.prog s.progLen s.pc = none →
      exec .loop s = .next { s with
        status := .fault, faultKind := some .missingClosing, faultPos := s.pc, faultDir := .left,
        errlog := s.errlog ++ [⟨.missingClosing, s.pc, .left⟩] })

/-- ENDLOOP (R121): cell zero: pc + 1; cell nonzero: one past the match of the `]`, or MissingOpeningBracket with the position
of this `]`; nothing else changes. -/
def Obligations.EndloopLeavesRepeatsOrFaults : Prop :=
  ∀ s : State, s.dp < Config.hw.tapeLen →
    (s.tape.read s.dp = 0 → exec .endloop s = .next { s with pc := s.pc + 1 }) ∧
    (s.tape.read s.dp ≠ 0 → ∀ m, matchBwd s.prog s.pc = some m →
      exec .endloop s = .next { s with pc := m + 1 }) ∧
    (s.tape.read s.dp ≠ 0 → matchBwd s.prog s.pc = none →
      exec .endloop s = .next { s with
        status := .fault, faultKind := some .missingOpening, faultPos := s.pc, faultDir := .left,
        errlog := s.errlog ++ [⟨.missingOpening, s.pc, .left⟩] })

/-- While a stream has not answered, the step of `,` or `.` is held: pc stays and no state of the engine changes (R113). That a
hold is a next state, and that every `,` and every `.`, held or not, uses up exactly the one listed move of its stream, is the
model's (log 5). -/
def Obligations.UnansweredStreamHoldsStep : Prop :=
  (∀ s : State, s.dp < Config.hw.tapeLen → s.input.poll.1 = .hold →
    exec .inp s = .next { s with input := s.input.poll.2 }) ∧
  (∀ s : State, s.dp < Config.hw.tapeLen → s.sink.poll.1 = .hold →
    exec .out s = .next { s with sink := s.sink.poll.2 }) ∧
  (∀ s t : State, exec .inp s = .next t → t.input = s.input.poll.2) ∧
  ∀ s t : State, exec .out s = .next t → t.sink = s.sink.poll.2

/-- An input source that never answers holds a `,` for ever, and a sink that never takes a byte holds a `.` for ever (R113, R175):
after any number of steps the engine is RUNNING in the same state. That a hold is a step that answers a next state (R84 (d) calls
it a wait, a result of its own), and that such a stream is one whose tail repeats the hold, is the model's (log 5). -/
def Obligations.SilentStreamsHoldForEver : Prop :=
  ∀ (s : State) (k : Nat), s.status = .running → s.pc < s.progLen → s.dp < Config.hw.tapeLen →
    (decode (s.prog.read s.pc) = .inp ∧ s.input = ⟨[], .silent⟩ ∨
      decode (s.prog.read s.pc) = .out ∧ s.sink = ⟨[], .blocks⟩) →
    core.run k s = .next s

/-- An empty loop body entered with a nonzero cell repeats its `]` for ever (R121, R175): the state never changes. -/
def Obligations.EmptyLoopBodyRepeatsForEver : Prop :=
  ∀ (s : State) (p k : Nat), s.status = .running → s.pc = p + 1 → s.pc < s.progLen →
    decode (s.prog.read p) = .loop → decode (s.prog.read (p + 1)) = .endloop →
    s.dp < Config.hw.tapeLen → s.tape.read s.dp ≠ 0 →
    core.run k s = .next s

/-! ## Arithmetic and conversions, at every width -/

/-- The laws of R102, for every width N and every start value: incrementing or decrementing 2^N times restores the cell, `-` then `+` and k
increments then k decrements do (k = 1: `+` then `-`), k increments of the zero cell give k mod 2^N, and the zero test is that
the unsigned value, equally the signed value, is 0. -/
def Obligations.FullCycleRestoresCell : Prop :=
  ∀ (w : Nat) (v : BitVec w),
    cellInc^[2 ^ w] v = v ∧ cellDec^[2 ^ w] v = v ∧
    cellInc (cellDec v) = v ∧
    (∀ k : Nat, cellDec^[k] (cellInc^[k] v) = v) ∧
    (∀ k : Nat, (cellInc^[k] 0#w).toNat = k % 2 ^ w) ∧
    (isZero v = true ↔ v.toNat = 0) ∧ (isZero v = true ↔ v.toInt = 0)

/-- `+` then `-`, and `-` then `+`, restore the whole state but for pc, and never fault (R102). -/
def Obligations.IncAndDecUndoEachOther : Prop :=
  ∀ s : State, s.tape.wf = true → s.dp < Config.hw.tapeLen →
    (∃ t : State, exec .inc s = .next t ∧ exec .dec t = .next { s with pc := s.pc + 2 }) ∧
    ∃ t : State, exec .dec s = .next t ∧ exec .inc t = .next { s with pc := s.pc + 2 }

/-- The cell for an input byte at every width of at least 8: the byte's signed value, low 8 bits the byte; below 0x80 the byte
itself, and at the widths 16 and 32 from 0x80 up 0xFF00 + b and 0xFFFFFF00 + b (R112). -/
def Obligations.InputByteIsSignExtended : Prop :=
  (∀ (w : Nat) (b : Byte), 8 ≤ w →
    (cellOfByte w b).toInt = (if b.toNat < 0x80 then (b.toNat : Int) else b.toNat - 256) ∧
    byteOfCell (cellOfByte w b) = b ∧
    (b.toNat < 0x80 → (cellOfByte w b).toNat = b.toNat)) ∧
  ∀ b : Byte, 0x80 ≤ b.toNat →
    (cellOfByte 8 b).toNat = b.toNat ∧
    (cellOfByte 16 b).toNat = 0xFF00 + b.toNat ∧
    (cellOfByte 32 b).toNat = 0xFFFFFF00 + b.toNat

/-- `,` that is given a byte, then `.` whose byte is taken, outputs that byte (R114). -/
def Obligations.InputThenOutputEchoes : Prop :=
  ∀ (s : State) (b : Byte), s.tape.wf = true → s.dp < Config.hw.tapeLen →
    s.input.poll.1 = .deliver b → s.sink.poll.1 = .take →
    ∃ t u : State, exec .inp s = .next t ∧ exec .out t = .next u ∧ u.out = s.out ++ [b]

/-! ## Frames and single-effect rules over all instructions -/

/-- The data pointer is changed by no other instruction than `>`, by +1, and `<`, by -1 (R92). -/
def Obligations.OnlyPointerMovesChangeDp : Prop :=
  ∀ (i : Instr) (s t : State), exec i s = .next t → t.dp ≠ s.dp →
    (i = .right ∧ t.dp = s.dp + 1) ∨ (i = .left ∧ t.dp + 1 = s.dp)

/-- No instruction changes a cell other than the one at dp, and none but `+`, `-` and `,` changes any (R43, R46, R58). -/
def Obligations.OnlyPointedCellChanges : Prop :=
  ∀ (i : Instr) (s t : State), s.tape.wf = true → exec i s = .next t →
    (∀ a, a ≠ s.dp → t.tape.read a = s.tape.read a) ∧
    (i ≠ .inc → i ≠ .dec → i ≠ .inp → t.tape = s.tape)

/-- No step changes the program or PROG_LEN (R52), nor which error-log sink is connected. -/
def Obligations.ProgramIsNeverWritten : Prop :=
  ∀ s t : State, step s = .next t →
    t.prog = s.prog ∧ t.progLen = s.progLen ∧ t.errSink = s.errSink

/-- Only `.` touches the output sink, appending at most one byte, and only `,` touches the input source, consuming at most one
byte (R54, R55, R115). -/
def Obligations.StreamsMoveOnlyByTheirInstruction : Prop :=
  ∀ (i : Instr) (s t : State), exec i s = .next t →
    (t.out = s.out ∨ i = .out ∧ ∃ b, t.out = s.out ++ [b]) ∧
    (t.inPos = s.inPos ∨ i = .inp ∧ t.inPos = s.inPos + 1) ∧
    (i ≠ .out → t.sink = s.sink) ∧ (i ≠ .inp → t.input = s.input)

/-- Only `,` depends on the input source: with another source every other instruction does the same (R54, R84). -/
def Obligations.OnlyInputInstructionSeesInput : Prop :=
  ∀ (i : Instr) (s t : State) (k : InSource) (n : Nat), i ≠ .inp → exec i s = .next t →
    exec i { s with input := k, inPos := n } = .next { t with input := k, inPos := n }

/-- The bytes already output and the output sink influence nothing but the output: with others, every instruction but `.` does
the same (R55, R115). -/
def Obligations.OnlyOutputInstructionSeesSink : Prop :=
  ∀ (i : Instr) (s t : State) (k : OutSink) (o : List Byte), i ≠ .out → exec i s = .next t →
    exec i { s with sink := k, out := o } = .next { t with sink := k, out := o }

/-- The next pc (R82): one past the match for a `[` on a zero cell and for a `]` on a nonzero one, pc + 1 for everything else; always in
1 .. PROG_LEN. A held `,` or `.` (R113, a next state by log 5) and a fault (R148) leave pc on the instruction. -/
def Obligations.NextPcIsAdvanceOrMatch : Prop :=
  ∀ (i : Instr) (s t : State), s.status = .running → s.pc < s.progLen → exec i s = .next t →
    (t.status = .fault → t.pc = s.pc) ∧
    (i = .inp ∧ s.input.poll.1 = .hold ∨ i = .out ∧ s.sink.poll.1 = .hold → t.pc = s.pc) ∧
    (t.status ≠ .fault → ¬ (i = .inp ∧ s.input.poll.1 = .hold ∨ i = .out ∧ s.sink.poll.1 = .hold) →
      1 ≤ t.pc ∧ t.pc ≤ s.progLen ∧
      if i = .loop ∧ s.tape.read s.dp = 0 then
        ∃ m, matchFwd s.prog s.progLen s.pc = some m ∧ t.pc = m + 1
      else if i = .endloop ∧ s.tape.read s.dp ≠ 0 then
        ∃ m, matchBwd s.prog s.pc = some m ∧ t.pc = m + 1
      else t.pc = s.pc + 1)

/-- Fault entry (R147, R148): ERRLOG gets the report, FAULT_KIND, FAULT_POS and FAULT_DIR are set from it and STATUS becomes FAULT;
nothing else is written, the position is that of the faulting instruction, the outcome is the kind, and the engine then
stops (a step that answers the same state, log 7). An instruction that does not fault writes none of these. -/
def Obligations.FaultEntryIsPrecise : Prop :=
  ∀ (i : Instr) (s t : State), s.status = .running → exec i s = .next t →
    (t.status = .running ∧ t.errlog = s.errlog ∧ t.faultKind = s.faultKind ∧
      t.faultPos = s.faultPos ∧ t.faultDir = s.faultDir) ∨
    ∃ (kind : FaultKind) (dir : Direction),
      t = { s with
        status := .fault, faultKind := some kind, faultPos := s.pc, faultDir := dir,
        errlog := s.errlog ++ [⟨kind, s.pc, dir⟩] } ∧
      t.verdict = some (.failed kind) ∧ step t = .next t

/-- The table of R141: an instruction faults exactly under its own condition, with its own kind and direction; a bracket fault
needs a scan that is made and exhausted (R125). -/
def Obligations.FaultsExactlyUnderTableConditions : Prop :=
  ∀ (i : Instr) (s t : State), s.status = .running → exec i s = .next t →
    ((t.status = .fault ∧ t.faultKind = some .outOfBounds ∧ t.faultDir = .right) ↔
      (i = .right ∧ s.dp = Config.hw.tapeLen - 1)) ∧
    ((t.status = .fault ∧ t.faultKind = some .outOfBounds ∧ t.faultDir = .left) ↔
      (i = .left ∧ s.dp = 0)) ∧
    ((t.status = .fault ∧ t.faultKind = some .missingClosing) ↔
      (i = .loop ∧ s.tape.read s.dp = 0 ∧ matchFwd s.prog s.progLen s.pc = none)) ∧
    ((t.status = .fault ∧ t.faultKind = some .missingOpening) ↔
      (i = .endloop ∧ s.tape.read s.dp ≠ 0 ∧ matchBwd s.prog s.pc = none))

/-- An address the spec's spaces do not have stops the model by name (log 9): an instruction that touches the tape with dp not
below TAPE_LEN, and a fetch above PROG_LEN. No state that meets the invariant is there. -/
def Obligations.OutsideAddressesStopByName : Prop :=
  (∀ (i : Instr) (s : State), i ∈ [Instr.inc, .dec, .out, .inp, .loop, .endloop] →
    Config.hw.tapeLen ≤ s.dp → exec i s = .fault .tapeAddress) ∧
  ∀ s : State, s.status = .running → s.progLen < s.pc → step s = .fault .programAddress

/-- `>` exactly TAPE_LEN - 1 times from cell 0 reaches the last cell, and one more raises OutOfBounds there (R93). -/
def Obligations.RightRunsToLastCellThenFaults : Prop :=
  ∀ s : State, s.dp = 0 →
    (∀ n, n < Config.hw.tapeLen → execTimes .right n s = .next { s with dp := n, pc := s.pc + n }) ∧
    execTimes .right Config.hw.tapeLen s = .next { s with
      dp := Config.hw.tapeLen - 1, pc := s.pc + (Config.hw.tapeLen - 1),
      status := .fault, faultKind := some .outOfBounds,
      faultPos := s.pc + (Config.hw.tapeLen - 1), faultDir := .right,
      errlog := s.errlog ++ [⟨.outOfBounds, s.pc + (Config.hw.tapeLen - 1), .right⟩] }

/-! ## Invariants and whole executions -/

/-- Every step keeps the invariant of R31. -/
def Obligations.StepKeepsStateInvariant : Prop :=
  ∀ s t : State, s.Inv → step s = .next t → t.Inv

/-- From a state that meets the invariant a step always answers a next state: it never stops outside the spec and nothing is
refused (R65, R84). R84 gives a halt, a fault and a wait as results apart from a next state; that the model's step answers a next
state for a wait is log 5, in IDLE, DONE and FAULT log 7, for a fault log 8. -/
def Obligations.StepNeverStopsOutsideSpec : Prop :=
  ∀ s : State, s.Inv → ∃ t : State, step s = .next t

/-- Whatever program and streams the host starts the engine with, it runs for any number of steps without a stop or a refusal, and
every state on the way meets the invariant (R31, R84). That the run goes on through holds as next states is log 5, after a halt
log 7 and after a fault log 8. -/
def Obligations.StartedExecutionRunsOn : Prop :=
  ∀ (l : Launch) (s t : State) (k : Nat), hostStart l s = .next t →
    ∃ u : State, core.run k t = .next u ∧ u.Inv

/-- Along any number of steps the output only grows at its end, IN_POS never falls and the program stays (R49, R52). -/
def Obligations.OutputOnlyGrowsAlongRuns : Prop :=
  ∀ (s u : State) (k : Nat), core.run k s = .next u →
    s.out <+: u.out ∧ s.inPos ≤ u.inPos ∧ u.prog = s.prog ∧ u.progLen = s.progLen

/-- A fault reaches the host: a step into FAULT has one report whose kind is the outcome and whose position is pc, and the fault
registers hold it whichever error-log sink is connected. A kept error log shows the host that report and its rendering, a
discarding one neither (R11, R56, R147, R149, D25). That ERRLOG, the engine's side, holds the report in both cases is log 8; the
rendering is whatever Config.diagRender is (log 10). -/
def Obligations.FaultReachesHost : Prop :=
  ∀ s t : State, s.Inv → s.status = .running → step s = .next t → t.status = .fault →
    ∃ r : FaultReport, r.pos = s.pc ∧
      t.faultKind = some r.kind ∧ t.faultPos = r.pos ∧ t.faultDir = r.dir ∧ t.errlog = [r] ∧
      (t.errSink = .kept →
        t.observe = ⟨some (.failed r.kind), s.out, some r, s.inPos⟩ ∧ t.errorLogBytes = Config.diagRender r) ∧
      (t.errSink = .discarded →
        t.observe = ⟨some (.failed r.kind), s.out, none, s.inPos⟩ ∧ t.errorLogBytes = [])

/-- Which error-log sink is connected changes nothing else: with the other sink a step does the same (R56, D25), so the outcome and
the status registers return the fault in both cases. -/
def Obligations.ErrorSinkChangesNothingElse : Prop :=
  ∀ (s t : State) (e : ErrSink), step s = .next t →
    step { s with errSink := e } = .next { t with errSink := e }

/-! ## Every configuration -/

/-- This hardware is one configuration of the engine (R5, R6, R8): CELLW 32, TAPE_LEN 30000, PCW 32, DPW 15; its executor, step and
state after reset are the configured ones. -/
def Obligations.HardwareIsOneConfiguration : Prop :=
  Config.hw.legal ∧
  Config.hw.cellW = 32 ∧ Config.hw.tapeLen = 30000 ∧ Config.hw.pcW = 32 ∧ Config.hw.dpW = 15 ∧
  (∀ (i : Instr) (s : State), exec i s = execAt i s) ∧ (∀ s : State, step s = stepAt s) ∧
  State.reset = State.initial

/-- DPW is the least width with 2^DPW >= TAPE_LEN (R8). -/
def Obligations.DpWidthIsLeast : Prop :=
  ∀ (c : Config) (n : Nat), c.tapeLen ≤ 2 ^ n ↔ c.dpW ≤ n

/-- The tape ends where the configuration says (R5, R90, R91): at every configuration `>` faults exactly at index TAPE_LEN - 1 and `<`
at 0, and otherwise they move by one and stay on the tape. -/
def Obligations.TapeEdgesFollowTapeLength : Prop :=
  ∀ (c : Config) (s : State c), c.legal → s.dp < c.tapeLen →
    (s.dp + 1 < c.tapeLen → execAt .right s = .next { s with dp := s.dp + 1, pc := s.pc + 1 }) ∧
    (s.dp + 1 = c.tapeLen → execAt .right s = .next { s with
      status := .fault, faultKind := some .outOfBounds, faultPos := s.pc, faultDir := .right,
      errlog := s.errlog ++ [⟨.outOfBounds, s.pc, .right⟩] }) ∧
    (0 < s.dp → execAt .left s = .next { s with dp := s.dp - 1, pc := s.pc + 1 }) ∧
    (s.dp = 0 → execAt .left s = .next { s with
      status := .fault, faultKind := some .outOfBounds, faultPos := s.pc, faultDir := .left,
      errlog := s.errlog ++ [⟨.outOfBounds, s.pc, .left⟩] })

/-- The cells have the width the configuration says (R6, R100, R101, R110, R111): at every legal configuration `+` and `-` work
modulo 2^CELLW, `,` stores the byte sign-extended to CELLW bits and `.` outputs the low byte; no other cell changes. -/
def Obligations.CellsFollowCellWidth : Prop :=
  ∀ (c : Config) (s : State c), c.legal → s.tape.wf = true → s.dp < c.tapeLen →
    (∃ t : State c, execAt .inc s = .next t ∧
      (t.tape.read s.dp).toNat = ((s.tape.read s.dp).toNat + 1) % 2 ^ c.cellW ∧
      (∀ a, a ≠ s.dp → t.tape.read a = s.tape.read a)) ∧
    (∃ t : State c, execAt .dec s = .next t ∧
      (t.tape.read s.dp).toNat = ((s.tape.read s.dp).toNat + 2 ^ c.cellW - 1) % 2 ^ c.cellW ∧
      (∀ a, a ≠ s.dp → t.tape.read a = s.tape.read a)) ∧
    (∀ b : Byte, s.input.poll.1 = .deliver b →
      ∃ t : State c, execAt .inp s = .next t ∧ (t.tape.read s.dp).toInt = b.toInt ∧
        (∀ a, a ≠ s.dp → t.tape.read a = s.tape.read a)) ∧
    (s.sink.poll.1 = .take →
      ∃ (t : State c) (b : Byte), execAt .out s = .next t ∧ b.toNat = (s.tape.read s.dp).toNat % 256 ∧
        t.out = s.out ++ [b] ∧ t.tape = s.tape)

/-- At every configuration every step keeps the invariant of R31. -/
def Obligations.StepKeepsInvariantAtEveryConfiguration : Prop :=
  ∀ (c : Config) (s t : State c), s.Inv → stepAt s = .next t → t.Inv

/-- At every legal configuration, whatever program and streams the host starts the engine with, it runs for any number of steps
without a stop or a refusal, and every state on the way meets the invariant (R5, R6, R8, R31, R84). That the run goes on through
holds as next states is log 5, after a halt log 7 and after a fault log 8. -/
def Obligations.StartedExecutionRunsOnAtEveryConfiguration : Prop :=
  ∀ (c : Config) (l : Launch) (s t : State c) (k : Nat), c.legal → hostStart l s = .next t →
    ∃ u : State c, (machineAt c).run k t = .next u ∧ u.Inv

/-! ## Streams without end -/

/-- A loop whose exit test never sees a zero cell has no end (R175 (a)): where the body of `[,]` is a `,` and the source delivers
nonzero bytes for ever, with or without waits between them, the engine is RUNNING with no outcome after any number of steps. That
a source may go on for ever is the model's reading (log 5). -/
def Obligations.LoopOverEndlessInputNeverEnds : Prop :=
  ∀ (s : State) (p k : Nat) (first : InMove) (rest : List InMove),
    s.status = .running → s.pc = p + 1 → p + 2 < s.progLen →
    decode (s.prog.read p) = .loop → decode (s.prog.read (p + 1)) = .inp → decode (s.prog.read (p + 2)) = .endloop →
    s.dp < Config.hw.tapeLen → s.tape.wf = true →
    s.input.after = .repeats first rest →
    (∀ m ∈ s.input.moves ++ first :: rest, m = .hold ∨ ∃ b, b ≠ 0 ∧ m = .deliver b) →
    ∃ t : State, core.run k s = .next t ∧ t.status = .running ∧ t.verdict = none

/-! ## The bracket scan -/

/-- The closed form of the forward scan (R126): the match is the least later position whose balance is -1, inside the program; it
holds a `]`; and the scan is exhausted when there is none. -/
def Obligations.ForwardMatchIsLeastBalance : Prop :=
  ∀ (prog : Memory 8) (len p : Nat),
    (∀ m, matchFwd prog len p = some m ↔
      p < m ∧ m < len ∧ bal prog p m = -1 ∧ ∀ s, p < s → s < m → bal prog p s ≠ -1) ∧
    (matchFwd prog len p = none ↔ ∀ s, p < s → s < len → bal prog p s ≠ -1) ∧
    ∀ m, matchFwd prog len p = some m → prog.read m = opEndloop

/-- The closed form of the backward scan (R126): the match is the greatest earlier position whose balance is -1; it holds a `[`; and
the scan is exhausted when there is none. -/
def Obligations.BackwardMatchIsGreatestBalance : Prop :=
  ∀ (prog : Memory 8) (p : Nat),
    (∀ m, matchBwd prog p = some m ↔
      m < p ∧ lab prog m p = -1 ∧ ∀ s, m < s → s < p → lab prog s p ≠ -1) ∧
    (matchBwd prog p = none ↔ ∀ s, s < p → lab prog s p ≠ -1) ∧
    ∀ m, matchBwd prog p = some m → prog.read m = opLoop

/-- Forward and backward matches are inverse to each other, in every program (R128, R129). -/
def Obligations.BracketMatchesAreInverse : Prop :=
  ∀ (prog : Memory 8) (len a b : Nat), b < len → prog.read a = opLoop → prog.read b = opEndloop →
    (matchFwd prog len a = some b ↔ matchBwd prog b = some a)

/-- A well-formed program (R129): its execution never raises a bracket fault, and on its bracket positions the forward and
backward matches are total and inverse to each other. -/
def Obligations.WellFormedProgramsNeverBracketFault : Prop :=
  (∀ (s u : State) (k : Nat), s.Inv → s.status = .running → wellFormedProgram s.prog s.progLen →
    core.run k s = .next u →
    u.faultKind ≠ some .missingClosing ∧ u.faultKind ≠ some .missingOpening) ∧
  ∀ (prog : Memory 8) (len p : Nat), wellFormedProgram prog len → p < len →
    (prog.read p = opLoop → ∃ m, matchFwd prog len p = some m ∧ matchBwd prog m = some p) ∧
    (prog.read p = opEndloop → ∃ m, matchBwd prog p = some m ∧ matchFwd prog len m = some p)

/-- A matched pair at a < b (R128): executing the `[` at a goes to a + 1 or to b + 1, executing the `]` at b goes to a + 1 or to b +
1, as the cell at dp at that moment is nonzero or zero. -/
def Obligations.MatchedPairGoesToBodyOrPast : Prop :=
  ∀ (s : State) (a b : Nat), s.dp < Config.hw.tapeLen → b < s.progLen →
    s.prog.read a = opLoop → s.prog.read b = opEndloop → matchFwd s.prog s.progLen a = some b →
    (s.pc = a → exec .loop s =
      .next { s with pc := if s.tape.read s.dp = 0 then b + 1 else a + 1 }) ∧
    (s.pc = b → exec .endloop s =
      .next { s with pc := if s.tape.read s.dp = 0 then b + 1 else a + 1 })

/-- The jump table of R127, made in one pass, gives for every bracket position the scan's match or its exhaustion. -/
def Obligations.JumpTableAgreesWithScan : Prop :=
  ∀ (prog : Memory 8) (len p : Nat), p < len →
    (prog.read p = opLoop → tableFwd (jumpTable prog len) p = matchFwd prog len p) ∧
    (prog.read p = opEndloop → tableBwd (jumpTable prog len) p = matchBwd prog p)
end

