-- ==== Sys2Proof/Laws/Config.lean ====
section
/-! SUPPORT. The parameters of this hardware as equations, and the bounds that legality gives (spec/00_scope.md R5, R6, R8). -/

namespace Sys2Proof

theorem Config.hw_cellW : Config.hw.cellW = 32 := rfl

theorem Config.hw_tapeLen : Config.hw.tapeLen = 30000 := rfl

theorem Config.hw_maxProgLen : Config.hw.maxProgLen = 4294967295 := rfl

theorem Config.hw_legal : Config.hw.legal := by decide

/-- A legal cell is 8, 16 or 32 bits wide. -/
theorem Config.legal.cellW_cases {c : Config} (h : c.legal) : c.cellW = 8 ∨ c.cellW = 16 ∨ c.cellW = 32 := by
  simpa [Config.legalCellW] using h.1

end Sys2Proof
end

