-- ==== Sys2Proof/Laws/Memory.lean ====
section
/-! SUPPORT. The laws of a memory in canonical form: every operation keeps the form, a read after a write gives the value
written there and the old value elsewhere, and two memories that read alike are the same list. -/

namespace Sys2Proof.Machine

variable {w : Nat}

@[simp] theorem Memory.read_nil (a : Nat) : Memory.read ([] : Memory w) a = 0#w := rfl

theorem Memory.read_cons (k : Nat) (v : BitVec w) (m : Memory w) (a : Nat) :
    Memory.read ((k, v) :: m) a = if a = k then v else Memory.read m a := rfl

theorem Memory.wfFrom_cons {lo k : Nat} {v : BitVec w} {m : Memory w} :
    Memory.wfFrom lo ((k, v) :: m) = true ↔ lo ≤ k ∧ v ≠ 0#w ∧ Memory.wfFrom (k + 1) m = true := by
  simp [Memory.wfFrom, and_assoc]

theorem Memory.wfFrom_mono {lo hi : Nat} (h : lo ≤ hi) :
    {m : Memory w} → Memory.wfFrom hi m = true → Memory.wfFrom lo m = true
  | [], _ => rfl
  | (_, _) :: _, hm => by
    obtain ⟨h1, h2, h3⟩ := Memory.wfFrom_cons.mp hm
    exact Memory.wfFrom_cons.mpr ⟨h.trans h1, h2, h3⟩

/-- Below the first address of the form nothing is listed. -/
theorem Memory.read_below {lo a : Nat} (h : a < lo) :
    {m : Memory w} → Memory.wfFrom lo m = true → Memory.read m a = 0#w
  | [], _ => rfl
  | (k, _) :: _, hm => by
    obtain ⟨h1, _, h3⟩ := Memory.wfFrom_cons.mp hm
    rw [Memory.read_cons, if_neg (by omega)]
    exact Memory.read_below (by omega) h3

theorem Memory.wfFrom_write {lo a : Nat} (v : BitVec w) (ha : lo ≤ a) :
    {m : Memory w} → Memory.wfFrom lo m = true → Memory.wfFrom lo (Memory.write m a v) = true
  | [], _ => by
    by_cases hv : v = 0#w
    · simp [Memory.write, hv, Memory.wfFrom]
    · simp [Memory.write, hv, Memory.wfFrom, ha]
  | (k, x) :: m, hm => by
    obtain ⟨h1, h2, h3⟩ := Memory.wfFrom_cons.mp hm
    unfold Memory.write
    split
    · split
      · exact hm
      · next hk hv => exact Memory.wfFrom_cons.mpr ⟨ha, hv, Memory.wfFrom_cons.mpr ⟨by omega, h2, h3⟩⟩
    · split
      · next hk =>
        split
        · exact Memory.wfFrom_mono (by omega) h3
        · next hv => exact Memory.wfFrom_cons.mpr ⟨ha, hv, hk ▸ h3⟩
      · next h4 h5 => exact Memory.wfFrom_cons.mpr ⟨h1, h2, Memory.wfFrom_write v (by omega) h3⟩

/-- A write keeps the canonical form. -/
theorem Memory.wf_write {m : Memory w} (a : Nat) (v : BitVec w) (h : m.wf = true) : (m.write a v).wf = true :=
  Memory.wfFrom_write v (Nat.zero_le a) h

theorem Memory.read_writeFrom {lo : Nat} (a b : Nat) (v : BitVec w) :
    {m : Memory w} → Memory.wfFrom lo m = true →
      Memory.read (Memory.write m a v) b = if b = a then v else Memory.read m b
  | [], _ => by
    by_cases hv : v = 0#w
    · simp [Memory.write, hv]
    · simp [Memory.write, hv, Memory.read_cons]
  | (k, x) :: m, hm => by
    obtain ⟨h1, h2, h3⟩ := Memory.wfFrom_cons.mp hm
    unfold Memory.write
    by_cases hk : a < k
    · by_cases hv : v = 0#w
      · rw [if_pos hk, if_pos hv]
        split
        · next hb =>
          rw [hb, hv]
          exact Memory.read_below hk (Memory.wfFrom_cons.mpr ⟨le_refl k, h2, h3⟩)
        · rfl
      · rw [if_pos hk, if_neg hv, Memory.read_cons]
    · by_cases ha : a = k
      · subst ha
        by_cases hv : v = 0#w
        · rw [if_neg hk, if_pos rfl, if_pos hv]
          split
          · next hb =>
            rw [hb, hv]
            exact Memory.read_below (Nat.lt_succ_self _) h3
          · next hb => rw [Memory.read_cons, if_neg hb]
        · rw [if_neg hk, if_pos rfl, if_neg hv, Memory.read_cons, Memory.read_cons]
          split <;> rfl
      · rw [if_neg hk, if_neg ha, Memory.read_cons, Memory.read_cons, Memory.read_writeFrom a b v h3]
        by_cases hb : b = k
        · rw [if_pos hb, if_pos hb, if_neg (by omega)]
        · rw [if_neg hb, if_neg hb]

/-- What a read gives after a write. -/
theorem Memory.read_write {m : Memory w} (h : m.wf = true) (a b : Nat) (v : BitVec w) :
    (m.write a v).read b = if b = a then v else m.read b :=
  Memory.read_writeFrom a b v h

@[simp] theorem Memory.within_cons {n : Nat} {e : Nat × BitVec w} {m : Memory w} :
    Memory.within n (e :: m) = true ↔ e.1 < n ∧ Memory.within n m = true := by
  simp [Memory.within]

/-- A write below the size keeps every listed address below it. -/
theorem Memory.within_write {n a : Nat} (v : BitVec w) (ha : a < n) :
    {m : Memory w} → m.within n = true → (m.write a v).within n = true
  | [], _ => by
    by_cases hv : v = 0#w <;> simp [Memory.write, hv, Memory.within, ha]
  | (k, x) :: m, hm => by
    obtain ⟨h1, h2⟩ := Memory.within_cons.mp hm
    unfold Memory.write
    split
    · split
      · exact hm
      · exact Memory.within_cons.mpr ⟨ha, hm⟩
    · split
      · split
        · exact h2
        · exact Memory.within_cons.mpr ⟨ha, h2⟩
      · exact Memory.within_cons.mpr ⟨h1, Memory.within_write v ha h2⟩

theorem Memory.eq_of_readFrom {lo : Nat} :
    {m m' : Memory w} → Memory.wfFrom lo m = true → Memory.wfFrom lo m' = true →
      (∀ a, Memory.read m a = Memory.read m' a) → m = m'
  | [], [], _, _, _ => rfl
  | [], (k, v) :: m', _, h', hr => by
    have := hr k
    rw [Memory.read_cons, if_pos rfl, Memory.read_nil] at this
    exact absurd this.symm (Memory.wfFrom_cons.mp h').2.1
  | (k, v) :: m, [], h, _, hr => by
    have := hr k
    rw [Memory.read_cons, if_pos rfl, Memory.read_nil] at this
    exact absurd this (Memory.wfFrom_cons.mp h).2.1
  | (k, v) :: m, (k', v') :: m', h, h', hr => by
    obtain ⟨h1, h2, h3⟩ := Memory.wfFrom_cons.mp h
    obtain ⟨h1', h2', h3'⟩ := Memory.wfFrom_cons.mp h'
    have hk : k = k' := by
      rcases Nat.lt_trichotomy k k' with hlt | heq | hgt
      · have := hr k
        rw [Memory.read_cons, if_pos rfl,
          Memory.read_below hlt (Memory.wfFrom_cons.mpr ⟨le_refl k', h2', h3'⟩)] at this
        exact absurd this h2
      · exact heq
      · have := hr k'
        rw [Memory.read_cons (m := m'), if_pos rfl,
          Memory.read_below hgt (Memory.wfFrom_cons.mpr ⟨le_refl k, h2, h3⟩)] at this
        exact absurd this.symm h2'
    subst hk
    have hv : v = v' := by simpa [Memory.read_cons] using hr k
    subst hv
    have hm : m = m' := Memory.eq_of_readFrom h3 h3' fun a => by
      have := hr a
      rw [Memory.read_cons, Memory.read_cons] at this
      by_cases ha : a = k
      · rw [Memory.read_below (by omega) h3, Memory.read_below (by omega) h3']
      · simpa [ha] using this
    rw [hm]

/-- The form is canonical: memories that read alike at every address are the same list. -/
theorem Memory.eq_of_read {m m' : Memory w} (h : m.wf = true) (h' : m'.wf = true)
    (hr : ∀ a, m.read a = m'.read a) : m = m' :=
  Memory.eq_of_readFrom h h' hr

theorem Memory.wfFrom_ofListFrom (a : Nat) :
    (vs : List (BitVec w)) → Memory.wfFrom a (Memory.ofListFrom a vs) = true
  | [] => rfl
  | v :: vs => by
    unfold Memory.ofListFrom
    split
    · exact Memory.wfFrom_mono (Nat.le_succ a) (Memory.wfFrom_ofListFrom (a + 1) vs)
    · next hv => exact Memory.wfFrom_cons.mpr ⟨le_refl a, hv, Memory.wfFrom_ofListFrom (a + 1) vs⟩

/-- A memory made from a sequence is in canonical form. -/
theorem Memory.wf_ofList (vs : List (BitVec w)) : (Memory.ofList vs).wf = true :=
  Memory.wfFrom_ofListFrom 0 vs

theorem Memory.read_ofListFrom (a i : Nat) :
    (vs : List (BitVec w)) → Memory.read (Memory.ofListFrom a vs) (a + i) = vs[i]?.getD 0#w
  | [] => by simp [Memory.ofListFrom]
  | v :: vs => by
    cases i with
    | zero =>
      unfold Memory.ofListFrom
      split
      · next hv =>
        simp [hv, Memory.read_below (Nat.lt_succ_self a) (Memory.wfFrom_ofListFrom (a + 1) vs)]
      · simp [Memory.read_cons]
    | succ i =>
      have ih := Memory.read_ofListFrom (a + 1) i vs
      rw [show a + 1 + i = a + (i + 1) by omega] at ih
      unfold Memory.ofListFrom
      split
      · simpa using ih
      · rw [Memory.read_cons, if_neg (by omega)]
        simpa using ih

/-- What a memory made from a sequence reads. -/
theorem Memory.read_ofList (vs : List (BitVec w)) (i : Nat) : (Memory.ofList vs).read i = vs[i]?.getD 0#w := by
  simpa [Memory.ofList] using Memory.read_ofListFrom 0 i vs

end Sys2Proof.Machine
end

