-- ==== Sys2Proof/Laws/Operands.lean ====
section
/-! SUPPORT. The operand functions as arithmetic on unsigned values, at every cell width (spec/42_cell_arith.md R100 to R102,
spec/43_io.md R110). -/

namespace Sys2Proof.Machine

theorem cellInc_toNat {w : Nat} (v : BitVec w) : (cellInc v).toNat = (v.toNat + 1) % 2 ^ w := by
  simp [cellInc]

theorem cellDec_toNat {w : Nat} (hw : 0 < w) (v : BitVec w) : (cellDec v).toNat = (v.toNat + 2 ^ w - 1) % 2 ^ w := by
  have h1 : 1 < 2 ^ w := Nat.one_lt_two_pow hw.ne'
  rw [cellDec, BitVec.toNat_sub, show BitVec.toNat (1 : BitVec w) = 1 from BitVec.toNat_one hw]
  congr 1
  omega

@[simp] theorem cellDec_cellInc {w : Nat} (v : BitVec w) : cellDec (cellInc v) = v := BitVec.add_sub_cancel v 1

@[simp] theorem cellInc_cellDec {w : Nat} (v : BitVec w) : cellInc (cellDec v) = v := BitVec.sub_add_cancel v 1

theorem byteOfCell_toNat {w : Nat} (v : BitVec w) : (byteOfCell v).toNat = v.toNat % 256 := by
  simp [byteOfCell]

end Sys2Proof.Machine
end

