-- ==== Sys2Proof/Laws/Ops.lean ====
section
/-! SUPPORT. For each shared operation, one lemma that says everything it can do. -/

namespace Sys2Proof.Machine

variable {c : Config} {s t : State c}

/-- An in-range tape access goes on with what follows it. -/
theorem onTape_of_lt (h : s.dp < c.tapeLen) (o : Host.Outcome (State c) Fault Refusal) : onTape s o = o := if_pos h

/-- An out-of-range tape access stops by name. -/
theorem onTape_of_ge (h : ¬ s.dp < c.tapeLen) (o : Host.Outcome (State c) Fault Refusal) :
    onTape s o = .fault .tapeAddress := if_neg h

theorem onTape_next {o : Host.Outcome (State c) Fault Refusal} (h : onTape s o = .next t) :
    s.dp < c.tapeLen ∧ o = .next t := by
  unfold onTape at h
  split at h
  · next hd => exact ⟨hd, h⟩
  · cases h

/-- `OutWrite` appends the byte or waits, as the sink's move says. -/
theorem outWrite_cases (b : Byte) (s : State c) :
    (s.sink.poll.1 = .take ∧ outWrite b s = (.take, { s with sink := s.sink.poll.2, out := s.out ++ [b] })) ∨
    (s.sink.poll.1 = .hold ∧ outWrite b s = (.hold, { s with sink := s.sink.poll.2 })) := by
  unfold outWrite
  rcases s.sink.poll with ⟨m, k⟩
  cases m
  · exact .inr ⟨rfl, rfl⟩
  · exact .inl ⟨rfl, rfl⟩

/-- `InRead` delivers a byte and counts it, answers that the input has ended, or waits, as the source's move says. -/
theorem inRead_cases (s : State c) :
    (∃ b, s.input.poll.1 = .deliver b ∧
      inRead s = (.deliver b, { s with input := s.input.poll.2, inPos := s.inPos + 1 })) ∨
    (s.input.poll.1 = .ended ∧ inRead s = (.ended, { s with input := s.input.poll.2 })) ∨
    (s.input.poll.1 = .hold ∧ inRead s = (.hold, { s with input := s.input.poll.2 })) := by
  unfold inRead
  rcases s.input.poll with ⟨m, k⟩
  cases m with
  | hold => exact .inr (.inr ⟨rfl, rfl⟩)
  | deliver b => exact .inl ⟨b, rfl, rfl⟩
  | ended => exact .inr (.inl ⟨rfl, rfl⟩)

/-- A pointer move goes to its target or raises OutOfBounds at the instruction's own position. -/
theorem movePointer_cases (dir : Direction) (target : Option Nat) (s : State c) :
    (∃ v, target = some v ∧ movePointer dir target s = .next (s.setDp v).advance) ∨
    (target = none ∧ movePointer dir target s = .next (s.raise ⟨.outOfBounds, s.pc, dir⟩)) := by
  cases target with
  | none => exact .inr ⟨rfl, rfl⟩
  | some v => exact .inl ⟨v, rfl, rfl⟩

/-- A bracket jump goes one past the match or raises its fault at the bracket's own position. -/
theorem jumpPast_cases (kind : FaultKind) (found : Option Nat) (s : State c) :
    (∃ m, found = some m ∧ jumpPast kind found s = .next (s.jump m)) ∨
    (found = none ∧ jumpPast kind found s = .next (s.raise ⟨kind, s.pc, .left⟩)) := by
  cases found with
  | none => exact .inr ⟨rfl, rfl⟩
  | some m => exact .inl ⟨m, rfl, rfl⟩

theorem moveRight_eq_none {n dp : Nat} : moveRight n dp = none ↔ dp = n - 1 := by
  unfold moveRight
  split <;> simp [*]

theorem moveRight_eq_some {n dp v : Nat} : moveRight n dp = some v ↔ dp ≠ n - 1 ∧ v = dp + 1 := by
  unfold moveRight
  split <;> simp [*, eq_comm]

theorem moveLeft_eq_none {dp : Nat} : moveLeft dp = none ↔ dp = 0 := by
  unfold moveLeft
  split <;> simp [*]

theorem moveLeft_eq_some {dp v : Nat} : moveLeft dp = some v ↔ dp ≠ 0 ∧ v = dp - 1 := by
  unfold moveLeft
  split <;> simp [*, eq_comm]

theorem isZero_eq_true {w : Nat} {v : BitVec w} : isZero v = true ↔ v = 0#w := decide_eq_true_iff

theorem isZero_eq_false {w : Nat} {v : BitVec w} : isZero v = false ↔ v ≠ 0#w := decide_eq_false_iff_not

/-- The top of a step, case by case. -/
theorem action_cases (s : State c) :
    (s.status ≠ .running ∧ action s = .settled (.next s)) ∨
    (s.status = .running ∧ s.pc = s.progLen ∧ action s = .settled (.next s.complete)) ∨
    (s.status = .running ∧ s.pc < s.progLen ∧ action s = .run (decode (s.prog.read s.pc))) ∨
    (s.status = .running ∧ s.progLen < s.pc ∧ action s = .settled (.fault .programAddress)) := by
  unfold action
  cases hs : s.status with
  | idle => exact .inl ⟨by simp, rfl⟩
  | done => exact .inl ⟨by simp, rfl⟩
  | fault => exact .inl ⟨by simp, rfl⟩
  | running =>
    refine .inr ?_
    by_cases h : s.pc = s.progLen
    · exact .inl ⟨rfl, h, if_pos h⟩
    · refine .inr ?_
      simp only [h, if_false, progRead]
      by_cases hlt : s.pc < s.progLen
      · exact .inl ⟨trivial, hlt, by simp [hlt]⟩
      · exact .inr ⟨trivial, by omega, by simp [hlt]⟩

end Sys2Proof.Machine
end

