-- ==== Sys2Proof/Laws/PerInstr.lean ====
section
/-! SUPPORT. Statements made per instruction. ScannerBytes: the two byte values the bracket scanner tells apart
(spec/30_encoding.md
R66) are exactly the encodings of LOOP and of ENDLOOP. -/

namespace Sys2Proof

/-- The encoding of a well-formed instruction is the scanner's `[` only for LOOP and its `]` only for ENDLOOP. -/
def Laws.ScannerBytes.Statement (i : Instr) : Prop :=
  i.wf = true → (encode i = opLoop ↔ i = .loop) ∧ (encode i = opEndloop ↔ i = .endloop)

theorem Laws.ScannerBytes.right : Laws.ScannerBytes.Statement .right := fun _ => by decide
theorem Laws.ScannerBytes.left : Laws.ScannerBytes.Statement .left := fun _ => by decide
theorem Laws.ScannerBytes.inc : Laws.ScannerBytes.Statement .inc := fun _ => by decide
theorem Laws.ScannerBytes.dec : Laws.ScannerBytes.Statement .dec := fun _ => by decide
theorem Laws.ScannerBytes.out : Laws.ScannerBytes.Statement .out := fun _ => by decide
theorem Laws.ScannerBytes.inp : Laws.ScannerBytes.Statement .inp := fun _ => by decide
theorem Laws.ScannerBytes.loop : Laws.ScannerBytes.Statement .loop := fun _ => by decide
theorem Laws.ScannerBytes.endloop : Laws.ScannerBytes.Statement .endloop := fun _ => by decide

theorem Laws.ScannerBytes.nop (b : Byte) : Laws.ScannerBytes.Statement (.nop b) := by
  intro h
  constructor <;>
  · refine ⟨fun hb => ?_, fun hb => by cases hb⟩
    change b = _ at hb
    subst hb
    revert h
    decide

end Sys2Proof
end

