-- ==== Sys2Proof/Laws/Step.lean ====
section
/-! SUPPORT. What each instruction and a whole step can answer, said once: every invariant is derived from these. -/

namespace Sys2Proof.Machine

variable {c : Config} {s t : State c}

/-- A next state of a step, whatever the executor: a halted or idle engine stays as it is, a running one completes at the end of
the program, or executes the instruction at pc. -/
theorem stepBy_next {run : Instr → State c → Host.Outcome (State c) Fault Refusal} (h : stepBy run s = .next t) :
    (s.status ≠ .running ∧ t = s) ∨
    (s.status = .running ∧ s.pc = s.progLen ∧ t = s.complete) ∨
    (s.status = .running ∧ s.pc < s.progLen ∧ run (decode (s.prog.read s.pc)) s = .next t) := by
  unfold stepBy at h
  rcases action_cases s with ⟨h1, h2⟩ | ⟨h1, h2, h3⟩ | ⟨h1, h2, h3⟩ | ⟨_, _, h3⟩
  · rw [h2] at h
    cases h
    exact .inl ⟨h1, rfl⟩
  · rw [h3] at h
    cases h
    exact .inr (.inl ⟨h1, h2, rfl⟩)
  · rw [h3] at h
    exact .inr (.inr ⟨h1, h2, h⟩)
  · rw [h3] at h
    cases h

/-- Inside the program a running engine's step is the execution of the decoded byte. -/
theorem stepBy_eq_run (run : Instr → State c → Host.Outcome (State c) Fault Refusal) (hs : s.status = .running)
    (hp : s.pc < s.progLen) : stepBy run s = run (decode (s.prog.read s.pc)) s := by
  unfold stepBy
  rcases action_cases s with ⟨h1, _⟩ | ⟨_, h2, _⟩ | ⟨_, _, h3⟩ | ⟨_, h2, _⟩
  · exact absurd hs h1
  · omega
  · rw [h3]
  · omega

/-- An engine that is not running stays as it is. -/
theorem stepBy_of_not_running (run : Instr → State c → Host.Outcome (State c) Fault Refusal) (hs : s.status ≠ .running) :
    stepBy run s = .next s := by
  unfold stepBy
  rcases action_cases s with ⟨_, h⟩ | ⟨h, _⟩ | ⟨h, _⟩ | ⟨h, _⟩
  · rw [h]
  all_goals exact absurd h hs

/-- At the end of the program a running engine completes. -/
theorem stepBy_of_end (run : Instr → State c → Host.Outcome (State c) Fault Refusal) (hs : s.status = .running)
    (hp : s.pc = s.progLen) : stepBy run s = .next s.complete := by
  unfold stepBy
  rcases action_cases s with ⟨h1, _⟩ | ⟨_, _, h3⟩ | ⟨_, h2, _⟩ | ⟨_, h2, _⟩
  · exact absurd hs h1
  · rw [h3]
  · omega
  · omega

/-! The arm of each instruction, on this hardware and at any configuration -/

@[simp] theorem exec_right (s : State) : exec .right s = execRight s := rfl
@[simp] theorem exec_left (s : State) : exec .left s = execLeft s := rfl
@[simp] theorem exec_inc (s : State) : exec .inc s = execInc s := rfl
@[simp] theorem exec_dec (s : State) : exec .dec s = execDec s := rfl
@[simp] theorem exec_out (s : State) : exec .out s = execOut s := rfl
@[simp] theorem exec_inp (s : State) : exec .inp s = execIn s := rfl
@[simp] theorem exec_loop (s : State) : exec .loop s = execLoop s := rfl
@[simp] theorem exec_endloop (s : State) : exec .endloop s = execEndloop s := rfl
@[simp] theorem exec_nop (b : Byte) (s : State) : exec (.nop b) s = execNop b s := rfl

@[simp] theorem execAt_right (s : State c) : execAt .right s = execRight s := rfl
@[simp] theorem execAt_left (s : State c) : execAt .left s = execLeft s := rfl
@[simp] theorem execAt_inc (s : State c) : execAt .inc s = execInc s := rfl
@[simp] theorem execAt_dec (s : State c) : execAt .dec s = execDec s := rfl
@[simp] theorem execAt_out (s : State c) : execAt .out s = execOut s := rfl
@[simp] theorem execAt_inp (s : State c) : execAt .inp s = execIn s := rfl
@[simp] theorem execAt_loop (s : State c) : execAt .loop s = execLoop s := rfl
@[simp] theorem execAt_endloop (s : State c) : execAt .endloop s = execEndloop s := rfl
@[simp] theorem execAt_nop (b : Byte) (s : State c) : execAt (.nop b) s = execNop b s := rfl

/-- The executor of this hardware is the one of its configuration. -/
theorem exec_eq_execAt (i : Instr) (s : State) : exec i s = execAt i s := by
  cases i <;> rfl

/-- The step of this hardware is the one of its configuration. -/
theorem step_eq_stepAt (s : State) : step s = stepAt s := by
  simp only [step, stepAt, stepBy, exec_eq_execAt]

theorem step_next {s t : State} (h : step s = .next t) :
    (s.status ≠ .running ∧ t = s) ∨
    (s.status = .running ∧ s.pc = s.progLen ∧ t = s.complete) ∨
    (s.status = .running ∧ s.pc < s.progLen ∧ exec (decode (s.prog.read s.pc)) s = .next t) :=
  stepBy_next h

theorem step_eq_exec {s : State} (hs : s.status = .running) (hp : s.pc < s.progLen) :
    step s = exec (decode (s.prog.read s.pc)) s :=
  stepBy_eq_run exec hs hp

theorem execRight_cases (s : State c) :
    (s.dp ≠ c.tapeLen - 1 ∧ execRight s = .next (s.setDp (s.dp + 1)).advance) ∨
    (s.dp = c.tapeLen - 1 ∧ execRight s = .next (s.raise ⟨.outOfBounds, s.pc, .right⟩)) := by
  rcases movePointer_cases .right (moveRight c.tapeLen s.dp) s with ⟨v, hv, h⟩ | ⟨hn, h⟩
  · obtain ⟨h1, rfl⟩ := moveRight_eq_some.mp hv
    exact .inl ⟨h1, h⟩
  · exact .inr ⟨moveRight_eq_none.mp hn, h⟩

theorem execLeft_cases (s : State c) :
    (s.dp ≠ 0 ∧ execLeft s = .next (s.setDp (s.dp - 1)).advance) ∨
    (s.dp = 0 ∧ execLeft s = .next (s.raise ⟨.outOfBounds, s.pc, .left⟩)) := by
  rcases movePointer_cases .left (moveLeft s.dp) s with ⟨v, hv, h⟩ | ⟨hn, h⟩
  · obtain ⟨h1, rfl⟩ := moveLeft_eq_some.mp hv
    exact .inl ⟨h1, h⟩
  · exact .inr ⟨moveLeft_eq_none.mp hn, h⟩

theorem execInc_next (h : execInc s = .next t) :
    s.dp < c.tapeLen ∧ t = (s.putCell (cellInc s.cell)).advance := by
  obtain ⟨hd, h⟩ := onTape_next h
  cases h
  exact ⟨hd, rfl⟩

theorem execDec_next (h : execDec s = .next t) :
    s.dp < c.tapeLen ∧ t = (s.putCell (cellDec s.cell)).advance := by
  obtain ⟨hd, h⟩ := onTape_next h
  cases h
  exact ⟨hd, rfl⟩

theorem execOut_next (h : execOut s = .next t) :
    s.dp < c.tapeLen ∧
    ((s.sink.poll.1 = .take ∧
        t = ({ s with sink := s.sink.poll.2, out := s.out ++ [byteOfCell s.cell] } : State c).advance) ∨
      (s.sink.poll.1 = .hold ∧ t = { s with sink := s.sink.poll.2 })) := by
  obtain ⟨hd, h⟩ := onTape_next h
  refine ⟨hd, ?_⟩
  rcases outWrite_cases (byteOfCell s.cell) s with ⟨h1, h2⟩ | ⟨h1, h2⟩
  · rw [h2] at h
    cases h
    exact .inl ⟨h1, rfl⟩
  · rw [h2] at h
    cases h
    exact .inr ⟨h1, rfl⟩

theorem execIn_next (h : execIn s = .next t) :
    s.dp < c.tapeLen ∧
    ((∃ b, s.input.poll.1 = .deliver b ∧
        t = (({ s with input := s.input.poll.2, inPos := s.inPos + 1 } : State c).putCell
          (cellOfByte c.cellW b)).advance) ∨
      (s.input.poll.1 = .ended ∧
        t = (({ s with input := s.input.poll.2 } : State c).putCell 0#c.cellW).advance) ∨
      (s.input.poll.1 = .hold ∧ t = { s with input := s.input.poll.2 })) := by
  obtain ⟨hd, h⟩ := onTape_next h
  refine ⟨hd, ?_⟩
  rcases inRead_cases s with ⟨b, h1, h2⟩ | ⟨h1, h2⟩ | ⟨h1, h2⟩
  · rw [h2] at h
    cases h
    exact .inl ⟨b, h1, rfl⟩
  · rw [h2] at h
    cases h
    exact .inr (.inl ⟨h1, rfl⟩)
  · rw [h2] at h
    cases h
    exact .inr (.inr ⟨h1, rfl⟩)

theorem execLoop_next (h : execLoop s = .next t) :
    s.dp < c.tapeLen ∧
    ((s.cell ≠ 0#c.cellW ∧ t = s.advance) ∨
      (s.cell = 0#c.cellW ∧ ∃ m, matchFwd s.prog s.progLen s.pc = some m ∧ t = s.jump m) ∨
      (s.cell = 0#c.cellW ∧ matchFwd s.prog s.progLen s.pc = none ∧
        t = s.raise ⟨.missingClosing, s.pc, .left⟩)) := by
  obtain ⟨hd, h⟩ := onTape_next h
  refine ⟨hd, ?_⟩
  split at h
  · next hz =>
    rcases jumpPast_cases .missingClosing (matchFwd s.prog s.progLen s.pc) s with ⟨m, h1, h2⟩ | ⟨h1, h2⟩
    · rw [h2] at h
      cases h
      exact .inr (.inl ⟨isZero_eq_true.mp hz, m, h1, rfl⟩)
    · rw [h2] at h
      cases h
      exact .inr (.inr ⟨isZero_eq_true.mp hz, h1, rfl⟩)
  · next hz =>
    cases h
    exact .inl ⟨isZero_eq_false.mp (Bool.eq_false_iff.mpr hz), rfl⟩

theorem execEndloop_next (h : execEndloop s = .next t) :
    s.dp < c.tapeLen ∧
    ((s.cell = 0#c.cellW ∧ t = s.advance) ∨
      (s.cell ≠ 0#c.cellW ∧ ∃ m, matchBwd s.prog s.pc = some m ∧ t = s.jump m) ∨
      (s.cell ≠ 0#c.cellW ∧ matchBwd s.prog s.pc = none ∧
        t = s.raise ⟨.missingOpening, s.pc, .left⟩)) := by
  obtain ⟨hd, h⟩ := onTape_next h
  refine ⟨hd, ?_⟩
  split at h
  · next hz =>
    cases h
    exact .inl ⟨isZero_eq_true.mp hz, rfl⟩
  · next hz =>
    have hz := isZero_eq_false.mp (Bool.eq_false_iff.mpr hz)
    rcases jumpPast_cases .missingOpening (matchBwd s.prog s.pc) s with ⟨m, h1, h2⟩ | ⟨h1, h2⟩
    · rw [h2] at h
      cases h
      exact .inr (.inl ⟨hz, m, h1, rfl⟩)
    · rw [h2] at h
      cases h
      exact .inr (.inr ⟨hz, h1, rfl⟩)

theorem execNop_next (b : Byte) (h : execNop b s = .next t) : t = s.advance := by
  cases h
  rfl

end Sys2Proof.Machine
end

