-- ==== Sys2Proof/Laws/Run.lean ====
section
/-! SUPPORT. Executions of several steps: the induction over a run, packaged once. -/

namespace Sys2Proof.Machine

/-! Runs of any machine -/

/-- One step of a run whose first step answers a next state. -/
theorem machineRun_succ_of_next {M : Host.Core} {s t : M.State} (k : Nat) (h : M.step s = .next t) :
    M.run (k + 1) s = M.run k t := by
  simp [Host.Core.run, h]

/-- A run that answers a next state begins with a step that does. -/
theorem machineRun_succ_next {M : Host.Core} {s u : M.State} {k : Nat} (h : M.run (k + 1) s = .next u) :
    ∃ t, M.step s = .next t ∧ M.run k t = .next u := by
  cases hs : M.step s with
  | next t => exact ⟨t, rfl, machineRun_succ_of_next k hs ▸ h⟩
  | fault r => simp [Host.Core.run, hs] at h
  | refused r => simp [Host.Core.run, hs] at h

/-- What every step keeps, every run keeps. -/
theorem machineRun_keeps {M : Host.Core} {P : M.State → Prop} (hP : ∀ s t, P s → M.step s = .next t → P t) :
    (k : Nat) → {s u : M.State} → P s → M.run k s = .next u → P u
  | 0, _, _, hs, h => by
    cases h
    exact hs
  | k + 1, _, _, hs, h => by
    obtain ⟨t, ht, hu⟩ := machineRun_succ_next h
    exact machineRun_keeps hP k (hP _ _ hs ht) hu

/-- Where every step from `P` goes on inside `P`, every run from `P` does. -/
theorem machineRun_goes_on {M : Host.Core} {P : M.State → Prop} (hP : ∀ s, P s → ∃ t, M.step s = .next t ∧ P t) :
    (k : Nat) → {s : M.State} → P s → ∃ u, M.run k s = .next u ∧ P u
  | 0, s, hs => ⟨s, rfl, hs⟩
  | k + 1, s, hs => by
    obtain ⟨t, ht, hpt⟩ := hP s hs
    obtain ⟨u, hu, hpu⟩ := machineRun_goes_on hP k hpt
    exact ⟨u, (machineRun_succ_of_next k ht).trans hu, hpu⟩

/-! Runs of this hardware -/

@[simp] theorem run_zero (s : State) : core.run 0 s = .next s := rfl

theorem run_succ_of_next {s t : State} (k : Nat) (h : step s = .next t) : core.run (k + 1) s = core.run k t :=
  machineRun_succ_of_next (M := core) k h

theorem run_succ_next {s u : State} {k : Nat} (h : core.run (k + 1) s = .next u) :
    ∃ t, step s = .next t ∧ core.run k t = .next u :=
  machineRun_succ_next (M := core) h

theorem run_keeps {P : State → Prop} (hP : ∀ s t, P s → step s = .next t → P t) (k : Nat) {s u : State} (hs : P s)
    (h : core.run k s = .next u) : P u :=
  machineRun_keeps (M := core) hP k hs h

theorem run_goes_on {P : State → Prop} (hP : ∀ s, P s → ∃ t, step s = .next t ∧ P t) (k : Nat) {s : State} (hs : P s) :
    ∃ u, core.run k s = .next u ∧ P u :=
  machineRun_goes_on (M := core) hP k hs

/-! One instruction several times over -/

@[simp] theorem execTimes_zero (i : Instr) (s : State) : execTimes i 0 s = .next s := rfl

/-- The first of several executions, where it answers a next state. -/
theorem execTimes_succ_of_next {i : Instr} {s t : State} (n : Nat) (h : exec i s = .next t) :
    execTimes i (n + 1) s = execTimes i n t := by
  simp [execTimes, h]

/-- Several executions, then several more. -/
theorem execTimes_add (i : Instr) (n : Nat) : (m : Nat) → {s t : State} → execTimes i m s = .next t →
    execTimes i (m + n) s = execTimes i n t
  | 0, _, _, h => by
    cases h
    rw [Nat.zero_add]
  | m + 1, s, t, h => by
    rw [Nat.succ_add]
    cases he : exec i s with
    | next u =>
      rw [execTimes_succ_of_next _ he] at h ⊢
      exact execTimes_add i n m h
    | fault r => simp [execTimes, he] at h
    | refused r => simp [execTimes, he] at h

end Sys2Proof.Machine
end

