-- ==== Sys2Proof/Laws/Scan.lean ====
section
/-! SUPPORT. What the bracket scanner can answer (spec/44_loop.md R122 to R126): a position in range that holds the bracket
sought. -/

namespace Sys2Proof.Machine

@[simp] theorem depthFwd_open (d : Nat) : depthFwd opLoop d = d + 1 := rfl

@[simp] theorem depthFwd_close (d : Nat) : depthFwd opEndloop d = d - 1 := rfl

theorem depthFwd_other {c : Byte} (h : c ≠ opLoop) (h' : c ≠ opEndloop) (d : Nat) : depthFwd c d = d := by
  simp [depthFwd, h, h']

@[simp] theorem depthBwd_close (d : Nat) : depthBwd opEndloop d = d + 1 := rfl

@[simp] theorem depthBwd_open (d : Nat) : depthBwd opLoop d = d - 1 := rfl

theorem depthBwd_other {c : Byte} (h : c ≠ opLoop) (h' : c ≠ opEndloop) (d : Nat) : depthBwd c d = d := by
  simp [depthBwd, h, h']

/-- The forward depth reaches 0 only on a `]`, from 1. -/
theorem depthFwd_eq_zero {c : Byte} {d : Nat} (hd : 0 < d) (h : depthFwd c d = 0) : c = opEndloop ∧ d = 1 := by
  unfold depthFwd at h
  split at h
  · omega
  · split at h
    · next hc => exact ⟨hc, by omega⟩
    · omega

/-- The backward depth reaches 0 only on a `[`, from 1. -/
theorem depthBwd_eq_zero {c : Byte} {d : Nat} (hd : 0 < d) (h : depthBwd c d = 0) : c = opLoop ∧ d = 1 := by
  unfold depthBwd at h
  split at h
  · omega
  · split at h
    · next hc => exact ⟨hc, by omega⟩
    · omega

@[simp] theorem scanFwd_zero (prog : Memory 8) (p d : Nat) : scanFwd prog 0 p d = none := rfl

theorem scanFwd_succ (prog : Memory 8) (left p d : Nat) :
    scanFwd prog (left + 1) p d =
      if depthFwd (prog.read (p + 1)) d = 0 then some (p + 1)
      else scanFwd prog left (p + 1) (depthFwd (prog.read (p + 1)) d) := rfl

@[simp] theorem scanBwd_zero (prog : Memory 8) (d : Nat) : scanBwd prog 0 d = none := rfl

theorem scanBwd_succ (prog : Memory 8) (p d : Nat) :
    scanBwd prog (p + 1) d =
      if depthBwd (prog.read p) d = 0 then some p else scanBwd prog p (depthBwd (prog.read p) d) := rfl

/-- A forward scan answers a later position of the program that holds a `]`. -/
theorem scanFwd_some {prog : Memory 8} : {left p d m : Nat} → 0 < d → scanFwd prog left p d = some m →
    p < m ∧ m ≤ p + left ∧ prog.read m = opEndloop
  | 0, _, _, _, _, h => by simp at h
  | left + 1, p, d, m, hd, h => by
    rw [scanFwd_succ] at h
    split at h
    · next h0 =>
      obtain rfl : p + 1 = m := by simpa using h
      exact ⟨by omega, by omega, (depthFwd_eq_zero hd h0).1⟩
    · next h0 =>
      obtain ⟨h1, h2, h3⟩ := scanFwd_some (Nat.pos_of_ne_zero h0) h
      exact ⟨by omega, by omega, h3⟩

/-- A backward scan answers an earlier position that holds a `[`. -/
theorem scanBwd_some {prog : Memory 8} : {p d m : Nat} → 0 < d → scanBwd prog p d = some m →
    m < p ∧ prog.read m = opLoop
  | 0, _, _, _, h => by simp at h
  | p + 1, d, m, hd, h => by
    rw [scanBwd_succ] at h
    split at h
    · next h0 =>
      obtain rfl : p = m := by simpa using h
      exact ⟨by omega, (depthBwd_eq_zero hd h0).1⟩
    · next h0 =>
      obtain ⟨h1, h2⟩ := scanBwd_some (Nat.pos_of_ne_zero h0) h
      exact ⟨by omega, h2⟩

/-- The match of a `[` lies after it, inside the program, on a `]`. -/
theorem matchFwd_some {prog : Memory 8} {len p m : Nat} (h : matchFwd prog len p = some m) :
    p < m ∧ m < len ∧ prog.read m = opEndloop := by
  obtain ⟨h1, h2, h3⟩ := scanFwd_some Nat.one_pos h
  exact ⟨h1, by omega, h3⟩

/-- The match of a `]` lies before it, on a `[`. -/
theorem matchBwd_some {prog : Memory 8} {p m : Nat} (h : matchBwd prog p = some m) :
    m < p ∧ prog.read m = opLoop :=
  scanBwd_some Nat.one_pos h

@[simp] theorem jumpTableFrom_zero (prog : Memory 8) (p : Nat) (opened : List Nat) :
    jumpTableFrom prog 0 p opened = [] := rfl

/-- One character of the pre-pass. -/
theorem jumpTableFrom_succ (prog : Memory 8) (left p : Nat) (opened : List Nat) :
    jumpTableFrom prog (left + 1) p opened =
      if prog.read p = opLoop then jumpTableFrom prog left (p + 1) (p :: opened)
      else if prog.read p = opEndloop then
        opened.head?.toList.map (fun o => (o, p)) ++ jumpTableFrom prog left (p + 1) opened.tail
      else jumpTableFrom prog left (p + 1) opened := by
  cases opened <;> rfl

end Sys2Proof.Machine
end

