-- ==== Sys2Proof/Laws/State.lean ====
section
/-! SUPPORT. One lemma per field per named update of the state, true by rfl, so that no proof unfolds a record update. -/

namespace Sys2Proof.Machine

variable {c : Config} (s : State c)

/-! `State.advance` -/

@[simp] theorem State.advance_status : s.advance.status = s.status := rfl
@[simp] theorem State.advance_pc : s.advance.pc = s.pc + 1 := rfl
@[simp] theorem State.advance_dp : s.advance.dp = s.dp := rfl
@[simp] theorem State.advance_tape : s.advance.tape = s.tape := rfl
@[simp] theorem State.advance_prog : s.advance.prog = s.prog := rfl
@[simp] theorem State.advance_progLen : s.advance.progLen = s.progLen := rfl
@[simp] theorem State.advance_faultKind : s.advance.faultKind = s.faultKind := rfl
@[simp] theorem State.advance_faultPos : s.advance.faultPos = s.faultPos := rfl
@[simp] theorem State.advance_faultDir : s.advance.faultDir = s.faultDir := rfl
@[simp] theorem State.advance_input : s.advance.input = s.input := rfl
@[simp] theorem State.advance_inPos : s.advance.inPos = s.inPos := rfl
@[simp] theorem State.advance_sink : s.advance.sink = s.sink := rfl
@[simp] theorem State.advance_out : s.advance.out = s.out := rfl
@[simp] theorem State.advance_errSink : s.advance.errSink = s.errSink := rfl
@[simp] theorem State.advance_errlog : s.advance.errlog = s.errlog := rfl

/-! `State.jump` -/

@[simp] theorem State.jump_status (m : Nat) : (s.jump m).status = s.status := rfl
@[simp] theorem State.jump_pc (m : Nat) : (s.jump m).pc = m + 1 := rfl
@[simp] theorem State.jump_dp (m : Nat) : (s.jump m).dp = s.dp := rfl
@[simp] theorem State.jump_tape (m : Nat) : (s.jump m).tape = s.tape := rfl
@[simp] theorem State.jump_prog (m : Nat) : (s.jump m).prog = s.prog := rfl
@[simp] theorem State.jump_progLen (m : Nat) : (s.jump m).progLen = s.progLen := rfl
@[simp] theorem State.jump_faultKind (m : Nat) : (s.jump m).faultKind = s.faultKind := rfl
@[simp] theorem State.jump_faultPos (m : Nat) : (s.jump m).faultPos = s.faultPos := rfl
@[simp] theorem State.jump_faultDir (m : Nat) : (s.jump m).faultDir = s.faultDir := rfl
@[simp] theorem State.jump_input (m : Nat) : (s.jump m).input = s.input := rfl
@[simp] theorem State.jump_inPos (m : Nat) : (s.jump m).inPos = s.inPos := rfl
@[simp] theorem State.jump_sink (m : Nat) : (s.jump m).sink = s.sink := rfl
@[simp] theorem State.jump_out (m : Nat) : (s.jump m).out = s.out := rfl
@[simp] theorem State.jump_errSink (m : Nat) : (s.jump m).errSink = s.errSink := rfl
@[simp] theorem State.jump_errlog (m : Nat) : (s.jump m).errlog = s.errlog := rfl

/-! `State.setDp` -/

@[simp] theorem State.setDp_status (v : Nat) : (s.setDp v).status = s.status := rfl
@[simp] theorem State.setDp_pc (v : Nat) : (s.setDp v).pc = s.pc := rfl
@[simp] theorem State.setDp_dp (v : Nat) : (s.setDp v).dp = v := rfl
@[simp] theorem State.setDp_tape (v : Nat) : (s.setDp v).tape = s.tape := rfl
@[simp] theorem State.setDp_prog (v : Nat) : (s.setDp v).prog = s.prog := rfl
@[simp] theorem State.setDp_progLen (v : Nat) : (s.setDp v).progLen = s.progLen := rfl
@[simp] theorem State.setDp_faultKind (v : Nat) : (s.setDp v).faultKind = s.faultKind := rfl
@[simp] theorem State.setDp_faultPos (v : Nat) : (s.setDp v).faultPos = s.faultPos := rfl
@[simp] theorem State.setDp_faultDir (v : Nat) : (s.setDp v).faultDir = s.faultDir := rfl
@[simp] theorem State.setDp_input (v : Nat) : (s.setDp v).input = s.input := rfl
@[simp] theorem State.setDp_inPos (v : Nat) : (s.setDp v).inPos = s.inPos := rfl
@[simp] theorem State.setDp_sink (v : Nat) : (s.setDp v).sink = s.sink := rfl
@[simp] theorem State.setDp_out (v : Nat) : (s.setDp v).out = s.out := rfl
@[simp] theorem State.setDp_errSink (v : Nat) : (s.setDp v).errSink = s.errSink := rfl
@[simp] theorem State.setDp_errlog (v : Nat) : (s.setDp v).errlog = s.errlog := rfl

/-! `State.putCell` -/

@[simp] theorem State.putCell_status (v : Cell c) : (s.putCell v).status = s.status := rfl
@[simp] theorem State.putCell_pc (v : Cell c) : (s.putCell v).pc = s.pc := rfl
@[simp] theorem State.putCell_dp (v : Cell c) : (s.putCell v).dp = s.dp := rfl
@[simp] theorem State.putCell_tape (v : Cell c) : (s.putCell v).tape = s.tape.write s.dp v := rfl
@[simp] theorem State.putCell_prog (v : Cell c) : (s.putCell v).prog = s.prog := rfl
@[simp] theorem State.putCell_progLen (v : Cell c) : (s.putCell v).progLen = s.progLen := rfl
@[simp] theorem State.putCell_faultKind (v : Cell c) : (s.putCell v).faultKind = s.faultKind := rfl
@[simp] theorem State.putCell_faultPos (v : Cell c) : (s.putCell v).faultPos = s.faultPos := rfl
@[simp] theorem State.putCell_faultDir (v : Cell c) : (s.putCell v).faultDir = s.faultDir := rfl
@[simp] theorem State.putCell_input (v : Cell c) : (s.putCell v).input = s.input := rfl
@[simp] theorem State.putCell_inPos (v : Cell c) : (s.putCell v).inPos = s.inPos := rfl
@[simp] theorem State.putCell_sink (v : Cell c) : (s.putCell v).sink = s.sink := rfl
@[simp] theorem State.putCell_out (v : Cell c) : (s.putCell v).out = s.out := rfl
@[simp] theorem State.putCell_errSink (v : Cell c) : (s.putCell v).errSink = s.errSink := rfl
@[simp] theorem State.putCell_errlog (v : Cell c) : (s.putCell v).errlog = s.errlog := rfl

/-! `State.complete` -/

@[simp] theorem State.complete_status : s.complete.status = .done := rfl
@[simp] theorem State.complete_pc : s.complete.pc = s.pc := rfl
@[simp] theorem State.complete_dp : s.complete.dp = s.dp := rfl
@[simp] theorem State.complete_tape : s.complete.tape = s.tape := rfl
@[simp] theorem State.complete_prog : s.complete.prog = s.prog := rfl
@[simp] theorem State.complete_progLen : s.complete.progLen = s.progLen := rfl
@[simp] theorem State.complete_faultKind : s.complete.faultKind = s.faultKind := rfl
@[simp] theorem State.complete_faultPos : s.complete.faultPos = s.faultPos := rfl
@[simp] theorem State.complete_faultDir : s.complete.faultDir = s.faultDir := rfl
@[simp] theorem State.complete_input : s.complete.input = s.input := rfl
@[simp] theorem State.complete_inPos : s.complete.inPos = s.inPos := rfl
@[simp] theorem State.complete_sink : s.complete.sink = s.sink := rfl
@[simp] theorem State.complete_out : s.complete.out = s.out := rfl
@[simp] theorem State.complete_errSink : s.complete.errSink = s.errSink := rfl
@[simp] theorem State.complete_errlog : s.complete.errlog = s.errlog := rfl

/-! `State.raise` -/

@[simp] theorem State.raise_status (r : FaultReport) : (s.raise r).status = .fault := rfl
@[simp] theorem State.raise_pc (r : FaultReport) : (s.raise r).pc = s.pc := rfl
@[simp] theorem State.raise_dp (r : FaultReport) : (s.raise r).dp = s.dp := rfl
@[simp] theorem State.raise_tape (r : FaultReport) : (s.raise r).tape = s.tape := rfl
@[simp] theorem State.raise_prog (r : FaultReport) : (s.raise r).prog = s.prog := rfl
@[simp] theorem State.raise_progLen (r : FaultReport) : (s.raise r).progLen = s.progLen := rfl
@[simp] theorem State.raise_faultKind (r : FaultReport) : (s.raise r).faultKind = some r.kind := rfl
@[simp] theorem State.raise_faultPos (r : FaultReport) : (s.raise r).faultPos = r.pos := rfl
@[simp] theorem State.raise_faultDir (r : FaultReport) : (s.raise r).faultDir = r.dir := rfl
@[simp] theorem State.raise_input (r : FaultReport) : (s.raise r).input = s.input := rfl
@[simp] theorem State.raise_inPos (r : FaultReport) : (s.raise r).inPos = s.inPos := rfl
@[simp] theorem State.raise_sink (r : FaultReport) : (s.raise r).sink = s.sink := rfl
@[simp] theorem State.raise_out (r : FaultReport) : (s.raise r).out = s.out := rfl
@[simp] theorem State.raise_errSink (r : FaultReport) : (s.raise r).errSink = s.errSink := rfl
@[simp] theorem State.raise_errlog (r : FaultReport) : (s.raise r).errlog = s.errlog ++ [r] := rfl

/-! The cell at the pointer depends on the tape and the pointer only. -/

@[simp] theorem State.advance_cell : s.advance.cell = s.cell := rfl
@[simp] theorem State.jump_cell (m : Nat) : (s.jump m).cell = s.cell := rfl
@[simp] theorem State.complete_cell : s.complete.cell = s.cell := rfl
@[simp] theorem State.raise_cell (r : FaultReport) : (s.raise r).cell = s.cell := rfl

end Sys2Proof.Machine
end

