-- ==== Sys2Proof/Tests/Slice0.lean ====
section
/-! SUPPORT. The model's own tests: the check on instruction terms, each instruction's byte written out in binary from the table of
spec/30_encoding.md R61, single steps from spec/95_test_vectors.md, and a witness for the hypotheses of every statement. -/

namespace Sys2Proof.Tests

open Sys2Proof.Machine

/-- The next state, where there is one. -/
def after {c : Config} (o : Host.Outcome (State c) Fault Refusal) : Option (State c) :=
  match o with
  | .next t => some t
  | .fault _ | .refused _ => none

/-- A running state in a program, with empty exhausted input and a sink that takes every byte. -/
def stAt (c : Config) (program : List Byte) (pc dp : Nat) (tape : Memory c.cellW) : State c :=
  { (startState ⟨program, ⟨[], .exhausted⟩, ⟨[], .takesAll⟩, .kept⟩ : State c) with pc := pc, dp := dp, tape := tape }

/-- The same on this hardware. -/
def st (program : List Byte) (pc dp : Nat) (tape : Memory 32) : State := stAt Config.hw program pc dp tape

/-- The program bytes of a text. -/
def text (cs : List Char) : List Byte := (assemble cs).getD []

/-! ## Well-formed terms -/

/-- A NOP may carry none of the eight recognised bytes: one ill-formed term for each. -/
theorem test_wf_refuses_recognised_nop :
    (Instr.nop 0x3E).wf = false ∧ (Instr.nop 0x3C).wf = false ∧ (Instr.nop 0x2B).wf = false ∧
    (Instr.nop 0x2D).wf = false ∧ (Instr.nop 0x2E).wf = false ∧ (Instr.nop 0x2C).wf = false ∧
    (Instr.nop 0x5B).wf = false ∧ (Instr.nop 0x5D).wf = false := by decide

theorem test_wf_accepts_other_nop : (Instr.nop 0x00).wf = true ∧ (Instr.nop 0xFF).wf = true := by decide

/-! ## Decoding: the binary column of R61, and NOP neighbours of R68 -/

theorem test_decode_right : decode 0b00111110 = .right := by decide
theorem test_decode_left : decode 0b00111100 = .left := by decide
theorem test_decode_inc : decode 0b00101011 = .inc := by decide
theorem test_decode_dec : decode 0b00101101 = .dec := by decide
theorem test_decode_out : decode 0b00101110 = .out := by decide
theorem test_decode_inp : decode 0b00101100 = .inp := by decide
theorem test_decode_loop : decode 0b01011011 = .loop := by decide
theorem test_decode_endloop : decode 0b01011101 = .endloop := by decide

/-- R68: `=` between the pointer moves and the backslash between the brackets are NOPs; V4: NUL, 0xFF and 0x80 are. -/
theorem test_decode_nop :
    decode 0b00111101 = .nop 0x3D ∧ decode 0b01011100 = .nop 0x5C ∧ decode 0b00000000 = .nop 0x00 ∧
    decode 0b11111111 = .nop 0xFF ∧ decode 0b10000000 = .nop 0x80 := by decide

/-- The characters of R61's first column have the bytes of its second. -/
theorem test_characters_are_bytes :
    text ['>', '<', '+', '-', '.', ',', '[', ']'] = recognisedBytes := by decide

/-! ## The parameters of R5, R6 and R8, and the form of the program memory -/

theorem test_parameters :
    Config.hw.legal ∧ Config.hw.tapeLen = 30000 ∧ Config.hw.maxProgLen = 4294967295 ∧
    Config.hw.dpW = 15 ∧ ({ Config.hw with tapeLen := 4 } : Config).dpW = 2 := by decide

theorem test_program_entries_are_cells : Memory 8 = List Host.Cell := rfl

/-! ## Single steps from the vectors -/

/-- V7: the last cell can be reached. -/
theorem test_right_to_last_cell :
    (after (exec .right (st [0x3E] 0 29998 []))).map (fun t => (t.dp, t.pc)) = some (29999, 1) := by decide

/-- V8: fault OutOfBounds(pos=7, right); dp and pc stay. -/
theorem test_right_faults_at_last_cell :
    (after (exec .right (st [] 7 29999 []))).map (fun t => (t.dp, t.pc, t.status, t.errlog)) =
      some (29999, 7, .fault, [⟨.outOfBounds, 7, .right⟩]) := by decide

/-- V11. -/
theorem test_left_from_last_cell :
    (after (exec .left (st [] 9 29999 []))).map (fun t => (t.dp, t.pc)) = some (29998, 10) := by decide

/-- S4 and V10: fault OutOfBounds(pos=0, left), code 1, direction code 0. -/
theorem test_left_faults_at_zero :
    (after (step (st [0x3C] 0 0 []))).map
        (fun t => (t.dp, t.pc, t.statusReg, t.faultKindReg, t.faultDirReg)) =
      some (0, 0, 3, 1, 0) := by decide

/-- V17: no fault, and the cell that became zero is listed no more. -/
theorem test_inc_wraps_to_zero :
    (after (exec .inc (st [] 0 0 [(0, 0xFFFFFFFF), (1, 5)]))).map (fun t => (t.tape, t.pc, t.status)) =
      some ([(1, 5)], 1, .running) := by decide

/-- V16: signed overflow is no fault. -/
theorem test_inc_past_largest_signed :
    (after (exec .inc (st [] 0 2 [(2, 0x7FFFFFFF)]))).map (fun t => (t.tape, t.status)) =
      some ([(2, 0x80000000)], .running) := by decide

/-- V18, at the cell of R101's example. -/
theorem test_dec_wraps_to_all_ones :
    (after (exec .dec (st [] 0 3 [(1, 7), (9, 9)]))).map (fun t => t.tape) =
      some [(1, 7), (3, 0xFFFFFFFF), (9, 9)] := by decide

/-- V19. -/
theorem test_dec_past_most_negative :
    (after (exec .dec (st [] 0 0 [(0, 0x80000000)]))).map (fun t => (t.tape, t.status)) =
      some ([(0, 0x7FFFFFFF)], .running) := by decide

/-- S8: a cell holding 300 outputs byte 44, and keeps its value. -/
theorem test_out_low_byte :
    (after (exec .out (st [] 0 0 [(0, 300)]))).map (fun t => (t.out, t.tape, t.pc)) =
      some ([44], [(0, 300)], 1) := by decide

/-- S9: a cell holding -1 outputs 255. -/
theorem test_out_minus_one :
    (after (exec .out (st [] 0 0 [(0, 0xFFFFFFFF)]))).map (fun t => t.out) = some [0xFF] := by decide

/-- V42: the byte 0x80 is sign-extended. -/
theorem test_in_sign_extends :
    (after (exec .inp { st [] 0 0 [] with input := InSource.ofBytes [0x80] })).map
      (fun t => (t.tape, t.inPos, t.pc)) = some ([(0, 0xFFFFFF80)], 1, 1) := by decide

/-- V49: at end of input the cell is overwritten with 0 and IN_POS stays. -/
theorem test_in_end_of_input_stores_zero :
    (after (exec .inp (st [] 1 0 [(0, 1)]))).map (fun t => (t.tape, t.inPos, t.pc)) = some ([], 0, 2) := by decide

/-- V28: `[a[b]c]+.` with a zero cell goes to 7, one past MatchFwd(0) = 6. -/
theorem test_loop_skips_nested_body :
    (after (step (st (text ['[', 'a', '[', 'b', ']', 'c', ']', '+', '.']) 0 0 []))).map (fun t => t.pc) =
      some 7 := by decide

/-- S6: `[><` faults MissingClosingBracket at position 0. -/
theorem test_loop_unterminated_faults :
    (after (step (st (text ['[', '>', '<']) 0 0 []))).map (fun t => (t.pc, t.faultKindReg, t.errlog)) =
      some (0, 2, [⟨.missingClosing, 0, .left⟩]) := by decide

/-- The micro-trace under V39: the `]` at 14 of `++[>++[>+<-]<-]` matches 2, next pc 3. -/
theorem test_endloop_repeats_outer_body :
    (after (step (st (text ['+', '+', '[', '>', '+', '+', '[', '>', '+', '<', '-', ']', '<', '-', ']']) 14 0
      [(0, 1)]))).map (fun t => t.pc) = some 3 := by decide

/-- V35: `[]+]` at 3 faults MissingOpeningBracket: the balanced pair in front is no match. -/
theorem test_endloop_dangling_faults :
    (after (step (st (text ['[', ']', '+', ']']) 3 0 [(0, 1)]))).map (fun t => (t.pc, t.faultKindReg, t.errlog)) =
      some (3, 3, [⟨.missingOpening, 3, .left⟩]) := by decide

/-- V2: `a` only advances pc. -/
theorem test_nop_advances : after (step (st [0x61] 0 0 [])) = some (st [0x61] 1 0 []) := by decide

/-- V1: the empty program completes in its first step, with pc = 0. -/
theorem test_empty_program_completes :
    (after (step (st [] 0 0 []))).map (fun t => (t.status, t.pc, t.verdict)) =
      some (.done, 0, some .completed) := by decide

/-- From reset, a placed `>` runs in the very next step. -/
theorem test_placed_word_runs :
    (after (step (State.reset.withFetchWord 8 0x3E))).map (fun t => (t.dp, t.pc, t.status)) =
      some (1, 1, .running) := by decide

/-! ## The other widths and tape lengths -/

/-- V21 to V23. -/
theorem test_arithmetic_at_other_widths :
    cellInc 0xFF#8 = 0 ∧ cellDec 0#8 = 0xFF ∧ cellInc 0xFFFF#16 = 0 ∧ cellDec 0#16 = 0xFFFF := by decide

/-- V43: at CELLW 16. -/
theorem test_in_at_width_16 :
    (after (execAt .inp { stAt { Config.hw with cellW := 16 } [] 0 0 [] with input := InSource.ofBytes [0x80] })).map
      (fun t => (t.tape, t.inPos)) = some ([(0, 0xFF80)], 1) := by decide

/-- The first step of V47: at CELLW 8. -/
theorem test_in_at_width_8 :
    (after (stepAt { stAt { Config.hw with cellW := 8 } (text [',', '[', '-', ']']) 0 0 [] with
      input := InSource.ofBytes [0x80] })).map (fun t => (t.tape, t.pc)) = some ([(0, 0x80)], 1) := by decide

/-- V13: with one cell every `>` is out of bounds. -/
theorem test_right_on_one_cell :
    (after (execAt .right (stAt { Config.hw with tapeLen := 1 } [] 5 0 []))).map (fun t => (t.dp, t.errlog)) =
      some (0, [⟨.outOfBounds, 5, .right⟩]) := by decide

/-- The last step of P3: at TAPE_LEN 4 the `>` at 2 of `+[>+]` faults with dp = 3. -/
theorem test_right_runs_off_short_tape :
    (after (stepAt (stAt { Config.hw with tapeLen := 4 } (text ['+', '[', '>', '+', ']']) 2 3
      [(0, 1), (1, 1), (2, 1), (3, 1)]))).map (fun t => (t.pc, t.dp, t.faultKindReg, t.faultPosReg, t.faultDirReg)) =
      some (2, 3, 1, 2, 1) := by decide

/-- A character outside ASCII has no byte. -/
theorem test_other_character_has_no_byte : assemble ['>', 'ľ'] = none := by decide

/-- An endless source delivers its bytes in turn, and is then the source it was before. -/
theorem test_endless_source :
    (InSource.poll ⟨[], .repeats (.deliver 1) [.deliver 2]⟩).1 = .deliver 1 ∧
    InSource.poll (InSource.poll ⟨[], .repeats (.deliver 1) [.deliver 2]⟩).2 =
      (.deliver 2, ⟨[], .repeats (.deliver 1) [.deliver 2]⟩) := by decide

/-- The micro-trace under V39, from the jump table: `]` at 14 and at 11, `[` at 2. -/
theorem test_jump_table :
    let table := jumpTable (Memory.ofList
      (text ['+', '+', '[', '>', '+', '+', '[', '>', '+', '<', '-', ']', '<', '-', ']'])) 15
    tableBwd table 14 = some 2 ∧ tableBwd table 11 = some 6 ∧ tableFwd table 2 = some 14 := by decide

/-! ## Witnesses: a state and operands that meet the hypotheses of each statement -/

theorem witness_EncodedInstructionsDecodeBack :
    Instr.right.wf = true ∧ (Instr.nop 0x00).wf = true ∧ (Instr.nop 0xFF).wf = true := by decide

theorem witness_OtherBytesAreNop : (0x5C : Byte) ∉ recognisedBytes ∧ (0x00 : Byte) ∉ recognisedBytes := by decide

theorem witness_ResetLeavesIdleEngine : State.reset.status = .idle := by decide

theorem witness_StartEventDefinesState :
    (⟨[0x2B], ⟨[], .exhausted⟩, ⟨[], .takesAll⟩, .kept⟩ : Launch).program.length ≤ Config.hw.maxProgLen ∧
    State.reset.status ≠ .running := by decide

/-- One byte more than PROG_LEN can count. -/
theorem witness_LaunchIsRefused_too_long :
    State.reset.status ≠ .running ∧ 2 ^ 32 - 1 < (List.replicate (2 ^ 32) (0 : Byte)).length := by
  rw [List.length_replicate]
  decide

theorem witness_LaunchIsRefused_running : (st [] 0 0 []).status = .running := by decide

/-- A state in FAULT that meets the invariant: `<` at position 0. -/
def faulted : State := (st [0x3C] 0 0 []).raise ⟨.outOfBounds, 0, .left⟩

theorem witness_HostRegisterCodes : faulted.Inv ∧ faulted.status = .fault := by decide

/-- The last position of the program. -/
theorem witness_StepRunsDecodedInstruction :
    (st [0x2B, 0x2B] 1 0 []).status = .running ∧ (st [0x2B, 0x2B] 1 0 []).pc < (st [0x2B, 0x2B] 1 0 []).progLen := by
  decide

theorem witness_CompletionAtProgramEnd :
    (st [0x2B] 1 0 []).status = .running ∧ (st [0x2B] 1 0 []).pc = (st [0x2B] 1 0 []).progLen ∧
    (st [0x2B] 1 0 []).complete.status = .done := by decide

theorem witness_HaltedEngineStaysFrozen :
    State.reset.status ≠ .running ∧ (st [0x2B] 1 0 []).complete.status ≠ .running ∧ faulted.status ≠ .running := by decide

theorem witness_PlacedWordRunsNext : State.reset.prog.wf = true ∧ (st [0x2B] 0 0 []).prog.wf = true := by decide

theorem witness_RightMovesOrFaults :
    (st [] 0 29998 []).dp ≠ Config.hw.tapeLen - 1 ∧ (st [] 0 29999 []).dp = Config.hw.tapeLen - 1 := by decide

theorem witness_LeftMovesOrFaults : (st [] 0 1 []).dp ≠ 0 ∧ (st [] 0 0 []).dp = 0 := by decide

/-- The last cell, all ones. -/
theorem witness_IncAddsOneToCell :
    (st [] 0 29999 [(29999, 0xFFFFFFFF)]).tape.wf = true ∧ (st [] 0 29999 []).dp < Config.hw.tapeLen := by decide

/-- The first cell, zero. -/
theorem witness_DecSubtractsOneFromCell :
    (st [] 0 0 []).tape.wf = true ∧ (st [] 0 0 []).dp < Config.hw.tapeLen := by decide

theorem witness_OutAppendsLowByte :
    (st [] 0 29999 []).dp < Config.hw.tapeLen ∧ (st [] 0 29999 []).sink.poll.1 = .take := by decide

theorem witness_InStoresByteOrZero_byte :
    (st [] 0 29999 [(29999, 1)]).tape.wf = true ∧ (st [] 0 29999 [(29999, 1)]).dp < Config.hw.tapeLen ∧
    ({ st [] 0 29999 [(29999, 1)] with input := InSource.ofBytes [0xFF] } : State).input.poll.1 = .deliver 0xFF := by decide

theorem witness_InStoresByteOrZero_end :
    (st [] 0 0 [(0, 1)]).tape.wf = true ∧ (st [] 0 0 [(0, 1)]).dp < Config.hw.tapeLen ∧
    (st [] 0 0 [(0, 1)]).input.poll.1 = .ended := by decide

/-- The three clauses: a nonzero cell; a zero cell with the match in the last position; a zero cell in the last position. -/
theorem witness_LoopEntersSkipsOrFaults :
    (st [0x5B] 0 0 [(0, 1)]).dp < Config.hw.tapeLen ∧ (st [0x5B] 0 0 [(0, 1)]).tape.read 0 ≠ 0 ∧
    (st [0x5B, 0x5D] 0 0 []).tape.read 0 = 0 ∧
    matchFwd (st [0x5B, 0x5D] 0 0 []).prog 2 0 = some 1 ∧
    (st [0x5B] 0 0 []).tape.read 0 = 0 ∧ matchFwd (st [0x5B] 0 0 []).prog 1 0 = none := by decide

/-- The three clauses: a zero cell; a nonzero cell with the match at position 0; a nonzero cell and nothing before but a `+`. -/
theorem witness_EndloopLeavesRepeatsOrFaults :
    (st [0x5D] 0 0 []).dp < Config.hw.tapeLen ∧ (st [0x5D] 0 0 []).tape.read 0 = 0 ∧
    (st [0x5B, 0x5D] 1 0 [(0, 1)]).tape.read 0 ≠ 0 ∧
    matchBwd (st [0x5B, 0x5D] 1 0 [(0, 1)]).prog 1 = some 0 ∧
    (st [0x2B, 0x5D] 1 0 [(0, 1)]).tape.read 0 ≠ 0 ∧
    matchBwd (st [0x2B, 0x5D] 1 0 [(0, 1)]).prog 1 = none := by decide

theorem witness_UnansweredStreamHoldsStep :
    (st [] 0 29999 []).dp < Config.hw.tapeLen ∧
    ({ st [] 0 29999 [] with input := ⟨[.hold, .deliver 1], .silent⟩ } : State).input.poll.1 = .hold ∧
    ({ st [] 0 29999 [] with sink := ⟨[], .blocks⟩ } : State).sink.poll.1 = .hold := by decide

theorem witness_UnansweredStreamHoldsStep_used_up :
    ∃ s t u : State, exec .inp s = .next t ∧ exec .out s = .next u :=
  ⟨st [] 0 0 [], st [] 1 0 [], { st [] 1 0 [] with out := [0] }, rfl, rfl⟩

/-- `,` with a silent source, and `.` with a blocking sink. -/
theorem witness_SilentStreamsHoldForEver :
    ∃ s t : State, s.status = .running ∧ s.pc < s.progLen ∧ s.dp < Config.hw.tapeLen ∧
      decode (s.prog.read s.pc) = .inp ∧ s.input = ⟨[], .silent⟩ ∧
      t.status = .running ∧ t.pc < t.progLen ∧ t.dp < Config.hw.tapeLen ∧
      decode (t.prog.read t.pc) = .out ∧ t.sink = ⟨[], .blocks⟩ :=
  ⟨{ st [0x2C] 0 0 [] with input := ⟨[], .silent⟩ }, { st [0x2E] 0 0 [] with sink := ⟨[], .blocks⟩ }, by decide⟩

/-- V38: `+[]` at its `]`. -/
theorem witness_EmptyLoopBodyRepeatsForEver :
    ∃ (s : State) (p : Nat), s.status = .running ∧ s.pc = p + 1 ∧ s.pc < s.progLen ∧
      decode (s.prog.read p) = .loop ∧ decode (s.prog.read (p + 1)) = .endloop ∧
      s.dp < Config.hw.tapeLen ∧ s.tape.read s.dp ≠ 0 :=
  ⟨st [0x2B, 0x5B, 0x5D] 2 0 [(0, 1)], 1, by decide⟩

theorem witness_IncAndDecUndoEachOther :
    (st [] 0 0 [(0, 0x7FFFFFFF)]).tape.wf = true ∧ (st [] 0 0 [(0, 0x7FFFFFFF)]).dp < Config.hw.tapeLen := by decide

/-- Bytes on both sides of 0x80 at the smallest width. -/
theorem witness_InputByteIsSignExtended :
    8 ≤ 8 ∧ (0x7F : Byte).toNat < 0x80 ∧ 0x80 ≤ (0x80 : Byte).toNat ∧ 0x80 ≤ (0xFF : Byte).toNat := by decide

/-- S2: the byte 65. -/
theorem witness_InputThenOutputEchoes :
    ∃ s : State, s.tape.wf = true ∧ s.dp < Config.hw.tapeLen ∧ s.input.poll.1 = .deliver 65 ∧ s.sink.poll.1 = .take :=
  ⟨{ st [0x2C, 0x2E] 0 0 [] with input := InSource.ofBytes [65] }, by decide⟩

theorem witness_OnlyPointerMovesChangeDp :
    ∃ s t u : State, exec .right s = .next t ∧ t.dp ≠ s.dp ∧ exec .left t = .next u ∧ u.dp ≠ t.dp :=
  ⟨st [] 0 0 [], st [] 1 1 [], st [] 2 0 [], rfl, by decide, rfl, by decide⟩

theorem witness_OnlyPointedCellChanges :
    ∃ s t : State, s.tape.wf = true ∧ exec .right s = .next t ∧ Instr.right ≠ .inc ∧ Instr.right ≠ .dec ∧ Instr.right ≠ .inp :=
  ⟨st [] 0 0 [(0, 1)], st [] 1 1 [(0, 1)], by decide, rfl, by decide, by decide, by decide⟩

theorem witness_ProgramIsNeverWritten : ∃ s t : State, step s = .next t :=
  ⟨st [0x2B] 0 0 [], st [0x2B] 1 0 [(0, 1)], rfl⟩

theorem witness_StreamsMoveOnlyByTheirInstruction : ∃ s t : State, exec .out s = .next t ∧ Instr.out ≠ .inp :=
  ⟨st [] 0 0 [(0, 300)], { st [] 1 0 [(0, 300)] with out := [44] }, rfl, by decide⟩

theorem witness_OnlyInputInstructionSeesInput : ∃ s t : State, Instr.out ≠ .inp ∧ exec .out s = .next t :=
  ⟨st [] 0 0 [], { st [] 1 0 [] with out := [0] }, by decide, rfl⟩

theorem witness_OnlyOutputInstructionSeesSink : ∃ s t : State, Instr.inc ≠ .out ∧ exec .inc s = .next t :=
  ⟨st [] 0 0 [], st [] 1 0 [(0, 1)], by decide, rfl⟩

/-- An advance in the last position, a jump, a hold and a fault. -/
theorem witness_NextPcIsAdvanceOrMatch :
    (∃ s t : State, s.status = .running ∧ s.pc < s.progLen ∧ exec .inc s = .next t) ∧
    (∃ s t : State, s.status = .running ∧ s.pc < s.progLen ∧ exec .loop s = .next t ∧ t.pc = 2) ∧
    (∃ s t : State, s.status = .running ∧ s.pc < s.progLen ∧ exec .inp s = .next t ∧ t.pc = s.pc) ∧
    ∃ s t : State, s.status = .running ∧ s.pc < s.progLen ∧ exec .left s = .next t ∧ t.status = .fault :=
  ⟨⟨st [0x2B] 0 0 [], st [0x2B] 1 0 [(0, 1)], by decide, by decide, rfl⟩,
    ⟨st [0x5B, 0x5D] 0 0 [], st [0x5B, 0x5D] 2 0 [], by decide, by decide, rfl, by decide⟩,
    ⟨{ st [0x2C] 0 0 [] with input := ⟨[], .silent⟩ }, { st [0x2C] 0 0 [] with input := ⟨[], .silent⟩ },
      by decide, by decide, rfl, by decide⟩,
    ⟨st [0x3C] 0 0 [], faulted, by decide, by decide, rfl, by decide⟩⟩

theorem witness_FaultEntryIsPrecise :
    (∃ s t : State, s.status = .running ∧ exec .inc s = .next t) ∧
    ∃ s t : State, s.status = .running ∧ exec .left s = .next t :=
  ⟨⟨st [] 0 0 [], st [] 1 0 [(0, 1)], by decide, rfl⟩, ⟨st [0x3C] 0 0 [], faulted, by decide, rfl⟩⟩

/-- One fault of each row of R141's table. -/
theorem witness_FaultsExactlyUnderTableConditions :
    (∃ s t : State, s.status = .running ∧ exec .right s = .next t ∧ t.status = .fault) ∧
    (∃ s t : State, s.status = .running ∧ exec .left s = .next t ∧ t.status = .fault) ∧
    (∃ s t : State, s.status = .running ∧ exec .loop s = .next t ∧ t.status = .fault) ∧
    ∃ s t : State, s.status = .running ∧ exec .endloop s = .next t ∧ t.status = .fault :=
  ⟨⟨st [0x3E] 0 29999 [], (st [0x3E] 0 29999 []).raise ⟨.outOfBounds, 0, .right⟩, by decide, rfl, by decide⟩,
    ⟨st [0x3C] 0 0 [], faulted, by decide, rfl, by decide⟩,
    ⟨st [0x5B] 0 0 [], (st [0x5B] 0 0 []).raise ⟨.missingClosing, 0, .left⟩, by decide, rfl, by decide⟩,
    ⟨st [0x5D] 0 0 [(0, 1)], (st [0x5D] 0 0 [(0, 1)]).raise ⟨.missingOpening, 0, .left⟩, by decide, rfl, by decide⟩⟩

theorem witness_OutsideAddressesStopByName :
    Instr.inc ∈ [Instr.inc, .dec, .out, .inp, .loop, .endloop] ∧ Config.hw.tapeLen ≤ (st [] 0 30000 []).dp ∧
    (st [] 1 0 []).status = .running ∧ (st [] 1 0 []).progLen < (st [] 1 0 []).pc := by decide

theorem witness_RightRunsToLastCellThenFaults : (st [] 0 0 []).dp = 0 ∧ 29999 < Config.hw.tapeLen := by decide

/-- An instruction, the completion, and a fault, each from a state that meets the invariant. -/
theorem witness_StepKeepsStateInvariant :
    (∃ s t : State, s.Inv ∧ step s = .next t) ∧ (∃ s t : State, s.Inv ∧ step s = .next t ∧ t.status = .done) ∧
    ∃ s t : State, s.Inv ∧ step s = .next t ∧ t.status = .fault :=
  ⟨⟨st [0x2B] 0 29999 [], st [0x2B] 1 29999 [(29999, 1)], by decide, rfl⟩,
    ⟨st [0x2B] 1 0 [], (st [0x2B] 1 0 []).complete, by decide, rfl, by decide⟩,
    ⟨st [0x3C] 0 0 [], faulted, by decide, rfl, by decide⟩⟩

theorem witness_StepNeverStopsOutsideSpec : (st [0x2B] 0 29999 []).Inv ∧ (st [0x2B] 1 0 []).complete.Inv :=
  ⟨by decide, by decide⟩

theorem witness_StartedExecutionRunsOn :
    ∃ (l : Launch) (t : State), hostStart l State.reset = .next t :=
  ⟨⟨[0x2B], ⟨[], .exhausted⟩, ⟨[], .takesAll⟩, .kept⟩, st [0x2B] 0 0 [], rfl⟩

theorem witness_OutputOnlyGrowsAlongRuns : ∃ s u : State, core.run 2 s = .next u :=
  ⟨st [0x2E] 0 0 [], { st [0x2E] 1 0 [] with out := [0], status := .done }, rfl⟩

theorem witness_FaultReachesHost :
    (∃ s t : State, s.Inv ∧ s.status = .running ∧ step s = .next t ∧ t.status = .fault ∧ t.errSink = .kept) ∧
    ∃ s t : State, s.Inv ∧ s.status = .running ∧ step s = .next t ∧ t.status = .fault ∧ t.errSink = .discarded :=
  ⟨⟨st [0x3C] 0 0 [], faulted, by decide, by decide, rfl, by decide, by decide⟩,
    ⟨{ st [0x3C] 0 0 [] with errSink := .discarded }, { faulted with errSink := .discarded }, by decide, by decide, rfl,
      by decide, by decide⟩⟩

/-- A step into FAULT, with either sink. -/
theorem witness_ErrorSinkChangesNothingElse :
    ∃ s t : State, step s = .next t ∧ t.status = .fault ∧ s.errSink = .kept ∧ s.errSink ≠ .discarded :=
  ⟨st [0x3C] 0 0 [], faulted, rfl, by decide, by decide, by decide⟩

/-- R56: the host sees the report in a sink that keeps it and not in a discarding one, and the outcome in both cases. -/
theorem test_discarding_sink_hides_report :
    faulted.observe = ⟨some (.failed .outOfBounds), [], some ⟨.outOfBounds, 0, .left⟩, 0⟩ ∧
    ({ faulted with errSink := .discarded } : State).observe = ⟨some (.failed .outOfBounds), [], none, 0⟩ := by decide

/-- `[[]]`: the outer pair, last position included. -/
theorem witness_ForwardMatchIsLeastBalance :
    matchFwd (Memory.ofList [0x5B, 0x5B, 0x5D, 0x5D]) 4 0 = some 3 ∧
    matchFwd (Memory.ofList [0x5B, 0x5B, 0x5D]) 3 0 = none := by decide

theorem witness_BackwardMatchIsGreatestBalance :
    matchBwd (Memory.ofList [0x5B, 0x5B, 0x5D, 0x5D]) 3 = some 0 ∧
    matchBwd (Memory.ofList [0x5B, 0x5D, 0x5D]) 2 = none := by decide

theorem witness_BracketMatchesAreInverse :
    3 < 4 ∧ (Memory.ofList [0x5B, 0x5B, 0x5D, 0x5D] : Memory 8).read 0 = opLoop ∧
    (Memory.ofList [0x5B, 0x5B, 0x5D, 0x5D] : Memory 8).read 3 = opEndloop := by decide

/-- `[]` is well formed. -/
theorem wellFormed_pair : wellFormedProgram (Memory.ofList [0x5B, 0x5D]) 2 := by
  unfold wellFormedProgram
  decide

theorem witness_WellFormedProgramsNeverBracketFault :
    ∃ s u : State, s.Inv ∧ s.status = .running ∧ wellFormedProgram s.prog s.progLen ∧ core.run 1 s = .next u :=
  ⟨st [0x5B, 0x5D] 0 0 [], st [0x5B, 0x5D] 2 0 [], by decide, by decide, wellFormed_pair, rfl⟩

theorem witness_WellFormedProgramsNeverBracketFault_matches :
    wellFormedProgram (Memory.ofList [0x5B, 0x5D]) 2 ∧ 1 < 2 ∧
    (Memory.ofList [0x5B, 0x5D] : Memory 8).read 0 = opLoop ∧
    (Memory.ofList [0x5B, 0x5D] : Memory 8).read 1 = opEndloop :=
  ⟨wellFormed_pair, by decide, by decide, by decide⟩

theorem witness_MatchedPairGoesToBodyOrPast :
    ∃ s t : State, s.dp < Config.hw.tapeLen ∧ s.progLen = 2 ∧ s.prog.read 0 = opLoop ∧ s.prog.read 1 = opEndloop ∧
      matchFwd s.prog s.progLen 0 = some 1 ∧ s.pc = 0 ∧
      t.dp < Config.hw.tapeLen ∧ t.progLen = 2 ∧ t.prog.read 0 = opLoop ∧ t.prog.read 1 = opEndloop ∧
      matchFwd t.prog t.progLen 0 = some 1 ∧ t.pc = 1 :=
  ⟨st [0x5B, 0x5D] 0 0 [], st [0x5B, 0x5D] 1 0 [(0, 1)], by decide⟩

/-- A matched and an unmatched bracket of each kind: `][[]` . -/
theorem witness_JumpTableAgreesWithScan :
    ∃ prog : Memory 8, prog.read 0 = opEndloop ∧ prog.read 1 = opLoop ∧ prog.read 2 = opLoop ∧ prog.read 3 = opEndloop ∧
      matchBwd prog 0 = none ∧ matchFwd prog 4 1 = none ∧ matchFwd prog 4 2 = some 3 ∧ matchBwd prog 3 = some 2 :=
  ⟨Memory.ofList [0x5D, 0x5B, 0x5B, 0x5D], by decide⟩

/-- Widths 0 and 1, and the tape of this hardware. -/
theorem witness_DpWidthIsLeast :
    ({ Config.hw with tapeLen := 1 } : Config).tapeLen ≤ 2 ^ 0 ∧ ¬ ({ Config.hw with tapeLen := 2 } : Config).tapeLen ≤ 2 ^ 0 ∧
    Config.hw.tapeLen ≤ 2 ^ 15 ∧ ¬ Config.hw.tapeLen ≤ 2 ^ 14 := by decide

/-- Both ends of a tape of 4 cells, and the one cell that is both. -/
theorem witness_TapeEdgesFollowTapeLength :
    ({ Config.hw with tapeLen := 4 } : Config).legal ∧ 2 + 1 < 4 ∧ 3 + 1 = 4 ∧
    (stAt { Config.hw with tapeLen := 4 } [] 0 3 []).dp < 4 ∧
    ({ Config.hw with tapeLen := 1 } : Config).legal ∧ (stAt { Config.hw with tapeLen := 1 } [] 0 0 []).dp < 1 := by decide

/-- Cells of 8 and of 16 bits. -/
theorem witness_CellsFollowCellWidth :
    (∃ s : State { Config.hw with cellW := 8 }, ({ Config.hw with cellW := 8 } : Config).legal ∧ s.tape.wf = true ∧
      s.dp < Config.hw.tapeLen ∧ s.input.poll.1 = .deliver 0x80 ∧ s.sink.poll.1 = .take) ∧
    ∃ s : State { Config.hw with cellW := 16 }, ({ Config.hw with cellW := 16 } : Config).legal ∧ s.tape.wf = true ∧
      s.dp < Config.hw.tapeLen ∧ s.input.poll.1 = .deliver 0x80 ∧ s.sink.poll.1 = .take :=
  ⟨⟨{ stAt { Config.hw with cellW := 8 } [] 0 0 [(0, 0xFF)] with input := InSource.ofBytes [0x80] }, by decide⟩,
    ⟨{ stAt { Config.hw with cellW := 16 } [] 0 0 [] with input := InSource.ofBytes [0x80] }, by decide⟩⟩

/-- A fault on a tape of one cell. -/
theorem witness_StepKeepsInvariantAtEveryConfiguration :
    ∃ s t : State { Config.hw with tapeLen := 1 }, s.Inv ∧ stepAt s = .next t ∧ t.status = .fault :=
  ⟨stAt { Config.hw with tapeLen := 1 } [0x3E] 0 0 [],
    (stAt { Config.hw with tapeLen := 1 } [0x3E] 0 0 []).raise ⟨.outOfBounds, 0, .right⟩, by decide, rfl, by decide⟩

theorem witness_StartedExecutionRunsOnAtEveryConfiguration :
    ({ Config.hw with cellW := 8, tapeLen := 1 } : Config).legal ∧
    ∃ (l : Launch) (t : State { Config.hw with cellW := 8, tapeLen := 1 }), hostStart l State.initial = .next t :=
  ⟨by decide, ⟨[0x2B], ⟨[], .exhausted⟩, ⟨[], .takesAll⟩, .kept⟩, startState ⟨[0x2B], ⟨[], .exhausted⟩, ⟨[], .takesAll⟩, .kept⟩, rfl⟩

/-- `+[,]` at its `,`, with a source that waits and then delivers 1, over and over. -/
theorem witness_LoopOverEndlessInputNeverEnds :
    ∃ s : State, s.status = .running ∧ s.pc = 1 + 1 ∧ 1 + 2 < s.progLen ∧
      decode (s.prog.read 1) = .loop ∧ decode (s.prog.read (1 + 1)) = .inp ∧ decode (s.prog.read (1 + 2)) = .endloop ∧
      s.dp < Config.hw.tapeLen ∧ s.tape.wf = true ∧
      s.input.after = .repeats .hold [.deliver 1] ∧
      ∀ m ∈ s.input.moves ++ .hold :: [.deliver 1], m = .hold ∨ ∃ b, b ≠ 0 ∧ m = .deliver b :=
  ⟨{ st [0x2B, 0x5B, 0x2C, 0x5D] 2 0 [(0, 1)] with input := ⟨[], .repeats .hold [.deliver 1]⟩ },
    by decide, by decide, by decide, by decide, by decide, by decide, by decide, by decide, by decide, by
      intro m hm
      rcases List.mem_cons.mp hm with rfl | hm
      · exact .inl rfl
      · exact .inr ⟨1, by decide, List.mem_singleton.mp hm⟩⟩

end Sys2Proof.Tests
end

namespace Sys2Proof.Machine

/-! ## A read after a write -/

theorem Memory.read_write_self {w : Nat} {m : Memory w} (h : m.wf = true) (a : Nat) (v : BitVec w) :
    (m.write a v).read a = v :=
  (Memory.read_write h a a v).trans (if_pos rfl)

theorem Memory.read_write_of_ne {w : Nat} {m : Memory w} (h : m.wf = true) {a b : Nat} (hb : b ≠ a) (v : BitVec w) :
    (m.write a v).read b = m.read b :=
  (Memory.read_write h a b v).trans (if_neg hb)

/-! ## The invariant of R31 under the named operations -/

section Invariant

variable {c : Config} {s t : State c}

/-- The invariant of a RUNNING state, its one live clause written out. -/
theorem State.inv_iff_of_running (hs : s.status = .running) :
    s.Inv ↔ s.dp < c.tapeLen ∧ s.progLen ≤ c.maxProgLen ∧
      s.tape.wf = true ∧ s.tape.within c.tapeLen = true ∧ s.prog.wf = true ∧
      s.pc ≤ s.progLen ∧ s.faultKind = none ∧ s.faultPos = 0 ∧ s.faultDir = .left ∧ s.errlog = [] := by
  simp [State.Inv, hs]

theorem State.Inv.dp_lt (h : s.Inv) : s.dp < c.tapeLen := h.1

theorem State.Inv.pc_le (h : s.Inv) (hs : s.status = .running) : s.pc ≤ s.progLen := by
  obtain ⟨_, _, _, _, _, hpc, _⟩ := (State.inv_iff_of_running hs).mp h
  exact hpc

theorem State.Inv.errlog_eq_nil (h : s.Inv) (hs : s.status = .running) : s.errlog = [] := by
  obtain ⟨_, _, _, _, _, _, _, _, _, hlog⟩ := (State.inv_iff_of_running hs).mp h
  exact hlog

theorem State.Inv.advance (h : s.Inv) (hs : s.status = .running) (hp : s.pc < s.progLen) : s.advance.Inv := by
  obtain ⟨hdp, hlen, hwf, hin, hprog, _, hrec⟩ := (State.inv_iff_of_running hs).mp h
  exact (State.inv_iff_of_running (s := s.advance) hs).mpr ⟨hdp, hlen, hwf, hin, hprog, hp, hrec⟩

theorem State.Inv.jump {m : Nat} (h : s.Inv) (hs : s.status = .running) (hm : m < s.progLen) : (s.jump m).Inv := by
  obtain ⟨hdp, hlen, hwf, hin, hprog, _, hrec⟩ := (State.inv_iff_of_running hs).mp h
  exact (State.inv_iff_of_running (s := s.jump m) hs).mpr ⟨hdp, hlen, hwf, hin, hprog, hm, hrec⟩

theorem State.Inv.setDp {v : Nat} (h : s.Inv) (hs : s.status = .running) (hv : v < c.tapeLen) : (s.setDp v).Inv := by
  obtain ⟨_, hrest⟩ := (State.inv_iff_of_running hs).mp h
  exact (State.inv_iff_of_running (s := s.setDp v) hs).mpr ⟨hv, hrest⟩

theorem State.Inv.putCell (h : s.Inv) (hs : s.status = .running) (v : Cell c) : (s.putCell v).Inv := by
  obtain ⟨hdp, hlen, hwf, hin, hrest⟩ := (State.inv_iff_of_running hs).mp h
  exact (State.inv_iff_of_running (s := s.putCell v) hs).mpr
    ⟨hdp, hlen, Memory.wf_write s.dp v hwf, Memory.within_write v hdp hin, hrest⟩

/-- The invariant says nothing about the input source or IN_POS. -/
theorem State.Inv.setInput (h : s.Inv) (k : InSource) (n : Nat) : ({ s with input := k, inPos := n } : State c).Inv := h

/-- The invariant says nothing about the output sink or OUT. -/
theorem State.Inv.setOutput (h : s.Inv) (k : OutSink) (bs : List Byte) :
    ({ s with sink := k, out := bs } : State c).Inv := h

theorem State.Inv.complete (h : s.Inv) (hs : s.status = .running) (hp : s.pc = s.progLen) : s.complete.Inv := by
  obtain ⟨hdp, hlen, hwf, hin, hprog, _, hrec⟩ := (State.inv_iff_of_running hs).mp h
  exact ⟨hdp, hlen, hwf, hin, hprog, nofun, fun _ => ⟨hp, hrec⟩, nofun⟩

/-- A fault entry keeps the invariant where the report has the position of the instruction and its row of R141 holds. -/
theorem State.Inv.raise {r : FaultReport} (h : s.Inv) (hs : s.status = .running) (hp : s.pc < s.progLen)
    (hr : r.pos = s.pc) (hrow : (s.raise r).faultExplained = true) : (s.raise r).Inv := by
  obtain ⟨hdp, hlen, hwf, hin, hprog, _, _, _, _, hlog⟩ := (State.inv_iff_of_running hs).mp h
  exact ⟨hdp, hlen, hwf, hin, hprog, nofun, nofun, fun _ => ⟨hp, hr, hrow, by simp [hlog]⟩⟩

/-! Each row of R141's table explains its fault. -/

theorem State.faultExplained_right (hi : decode (s.prog.read s.pc) = .right) (hd : s.dp = c.tapeLen - 1) :
    (s.raise ⟨.outOfBounds, s.pc, .right⟩).faultExplained = true := by
  simp [State.faultExplained, hi, hd]

theorem State.faultExplained_left (hi : decode (s.prog.read s.pc) = .left) (hd : s.dp = 0) :
    (s.raise ⟨.outOfBounds, s.pc, .left⟩).faultExplained = true := by
  simp [State.faultExplained, hi, hd]

theorem State.faultExplained_loop (hi : decode (s.prog.read s.pc) = .loop) (hz : s.cell = 0#c.cellW)
    (hm : matchFwd s.prog s.progLen s.pc = none) :
    (s.raise ⟨.missingClosing, s.pc, .left⟩).faultExplained = true := by
  simp [State.faultExplained, hi, hm, isZero_eq_true.mpr hz]

theorem State.faultExplained_endloop (hi : decode (s.prog.read s.pc) = .endloop) (hz : s.cell ≠ 0#c.cellW)
    (hm : matchBwd s.prog s.pc = none) :
    (s.raise ⟨.missingOpening, s.pc, .left⟩).faultExplained = true := by
  simp [State.faultExplained, hi, hm, isZero_eq_false.mpr hz]

/-- The execution of the instruction at pc keeps the invariant. -/
theorem execAt_keeps_inv {i : Instr} (h : s.Inv) (hs : s.status = .running) (hp : s.pc < s.progLen)
    (hi : decode (s.prog.read s.pc) = i) (ht : execAt i s = .next t) : t.Inv := by
  cases i with
  | right =>
    rcases execRight_cases s with ⟨hd, he⟩ | ⟨hd, he⟩
    · cases he.symm.trans ht
      have hv : s.dp + 1 < c.tapeLen := by have := h.dp_lt; omega
      exact (h.setDp hs hv).advance hs hp
    · cases he.symm.trans ht
      exact h.raise hs hp rfl (State.faultExplained_right hi hd)
  | left =>
    rcases execLeft_cases s with ⟨_, he⟩ | ⟨hd, he⟩
    · cases he.symm.trans ht
      have hv : s.dp - 1 < c.tapeLen := by have := h.dp_lt; omega
      exact (h.setDp hs hv).advance hs hp
    · cases he.symm.trans ht
      exact h.raise hs hp rfl (State.faultExplained_left hi hd)
  | inc =>
    obtain ⟨_, rfl⟩ := execInc_next ht
    exact (h.putCell hs _).advance hs hp
  | dec =>
    obtain ⟨_, rfl⟩ := execDec_next ht
    exact (h.putCell hs _).advance hs hp
  | out =>
    obtain ⟨_, ⟨_, rfl⟩ | ⟨_, rfl⟩⟩ := execOut_next ht
    · exact (h.setOutput _ _).advance hs hp
    · exact h.setOutput _ _
  | inp =>
    obtain ⟨_, ⟨b, _, rfl⟩ | ⟨_, rfl⟩ | ⟨_, rfl⟩⟩ := execIn_next ht
    · exact ((h.setInput _ _).putCell hs _).advance hs hp
    · exact ((h.setInput _ _).putCell hs _).advance hs hp
    · exact h.setInput _ _
  | loop =>
    obtain ⟨_, ⟨_, rfl⟩ | ⟨_, m, hm, rfl⟩ | ⟨hz, hm, rfl⟩⟩ := execLoop_next ht
    · exact h.advance hs hp
    · exact h.jump hs (matchFwd_some hm).2.1
    · exact h.raise hs hp rfl (State.faultExplained_loop hi hz hm)
  | endloop =>
    obtain ⟨_, ⟨_, rfl⟩ | ⟨_, m, hm, rfl⟩ | ⟨hz, hm, rfl⟩⟩ := execEndloop_next ht
    · exact h.advance hs hp
    · exact h.jump hs ((matchBwd_some hm).1.trans hp)
    · exact h.raise hs hp rfl (State.faultExplained_endloop hi hz hm)
  | nop b =>
    obtain rfl := execNop_next b ht
    exact h.advance hs hp

/-- Every step keeps the invariant, at every configuration. -/
theorem stepAt_keeps_inv (h : s.Inv) (ht : stepAt s = .next t) : t.Inv := by
  rcases stepBy_next ht with ⟨_, rfl⟩ | ⟨hs, hp, rfl⟩ | ⟨hs, hp, he⟩
  · exact h
  · exact h.complete hs hp
  · exact execAt_keeps_inv h hs hp rfl he

end Invariant

/-! ## What each instruction answers, case by case -/

section Equations

variable {c : Config} {s t : State c}

theorem execRight_of_ne_last (hd : s.dp ≠ c.tapeLen - 1) : execRight s = .next (s.setDp (s.dp + 1)).advance :=
  ((execRight_cases s).resolve_right fun hlast => hd hlast.1).2

theorem execRight_of_last (hd : s.dp = c.tapeLen - 1) : execRight s = .next (s.raise ⟨.outOfBounds, s.pc, .right⟩) :=
  ((execRight_cases s).resolve_left fun hne => hne.1 hd).2

theorem execLeft_of_ne_zero (hd : s.dp ≠ 0) : execLeft s = .next (s.setDp (s.dp - 1)).advance :=
  ((execLeft_cases s).resolve_right fun hzero => hd hzero.1).2

theorem execLeft_of_zero (hd : s.dp = 0) : execLeft s = .next (s.raise ⟨.outOfBounds, s.pc, .left⟩) :=
  ((execLeft_cases s).resolve_left fun hne => hne.1 hd).2

theorem execInc_of_lt (hd : s.dp < c.tapeLen) : execInc s = .next (s.putCell (cellInc s.cell)).advance :=
  onTape_of_lt hd _

theorem execDec_of_lt (hd : s.dp < c.tapeLen) : execDec s = .next (s.putCell (cellDec s.cell)).advance :=
  onTape_of_lt hd _

theorem execOut_of_take (hd : s.dp < c.tapeLen) (hk : s.sink.poll.1 = .take) :
    execOut s =
      .next ({ s with sink := s.sink.poll.2, out := s.out ++ [byteOfCell s.cell] } : State c).advance := by
  rcases outWrite_cases (byteOfCell s.cell) s with ⟨_, ho⟩ | ⟨hh, _⟩
  · rw [execOut, onTape_of_lt hd, ho]
  · simp [hk] at hh

theorem execOut_of_hold (hd : s.dp < c.tapeLen) (hk : s.sink.poll.1 = .hold) :
    execOut s = .next { s with sink := s.sink.poll.2 } := by
  rcases outWrite_cases (byteOfCell s.cell) s with ⟨hh, _⟩ | ⟨_, ho⟩
  · simp [hk] at hh
  · rw [execOut, onTape_of_lt hd, ho]

theorem execIn_of_deliver {b : Byte} (hd : s.dp < c.tapeLen) (hk : s.input.poll.1 = .deliver b) :
    execIn s = .next (({ s with input := s.input.poll.2, inPos := s.inPos + 1 } : State c).putCell
      (cellOfByte c.cellW b)).advance := by
  rcases inRead_cases s with ⟨b', hb, hr⟩ | ⟨hh, _⟩ | ⟨hh, _⟩
  · obtain rfl : b = b' := by simpa using hk.symm.trans hb
    rw [execIn, onTape_of_lt hd, hr]
  · simp [hk] at hh
  · simp [hk] at hh

theorem execIn_of_ended (hd : s.dp < c.tapeLen) (hk : s.input.poll.1 = .ended) :
    execIn s = .next (({ s with input := s.input.poll.2 } : State c).putCell 0#c.cellW).advance := by
  rcases inRead_cases s with ⟨_, hh, _⟩ | ⟨_, hr⟩ | ⟨hh, _⟩
  · simp [hk] at hh
  · rw [execIn, onTape_of_lt hd, hr]
  · simp [hk] at hh

theorem execIn_of_hold (hd : s.dp < c.tapeLen) (hk : s.input.poll.1 = .hold) :
    execIn s = .next { s with input := s.input.poll.2 } := by
  rcases inRead_cases s with ⟨_, hh, _⟩ | ⟨hh, _⟩ | ⟨_, hr⟩
  · simp [hk] at hh
  · simp [hk] at hh
  · rw [execIn, onTape_of_lt hd, hr]

theorem execLoop_of_zero (hd : s.dp < c.tapeLen) (hz : s.cell = 0#c.cellW) :
    execLoop s = jumpPast .missingClosing (matchFwd s.prog s.progLen s.pc) s := by
  rw [execLoop, onTape_of_lt hd, if_pos (isZero_eq_true.mpr hz)]

theorem execLoop_of_ne_zero (hd : s.dp < c.tapeLen) (hz : s.cell ≠ 0#c.cellW) : execLoop s = .next s.advance := by
  rw [execLoop, onTape_of_lt hd, if_neg (mt isZero_eq_true.mp hz)]

theorem execEndloop_of_zero (hd : s.dp < c.tapeLen) (hz : s.cell = 0#c.cellW) :
    execEndloop s = .next s.advance := by
  rw [execEndloop, onTape_of_lt hd, if_pos (isZero_eq_true.mpr hz)]

theorem execEndloop_of_ne_zero (hd : s.dp < c.tapeLen) (hz : s.cell ≠ 0#c.cellW) :
    execEndloop s = jumpPast .missingOpening (matchBwd s.prog s.pc) s := by
  rw [execEndloop, onTape_of_lt hd, if_neg (mt isZero_eq_true.mp hz)]

theorem jumpPast_answers_next (kind : FaultKind) (found : Option Nat) (s : State c) :
    ∃ t, jumpPast kind found s = .next t := by
  rcases jumpPast_cases kind found s with ⟨_, _, h⟩ | ⟨_, h⟩ <;> exact ⟨_, h⟩

/-- Inside the tape every instruction answers a next state. -/
theorem execAt_answers_next (i : Instr) (hd : s.dp < c.tapeLen) : ∃ t, execAt i s = .next t := by
  cases i with
  | right => rcases execRight_cases s with ⟨_, h⟩ | ⟨_, h⟩ <;> exact ⟨_, h⟩
  | left => rcases execLeft_cases s with ⟨_, h⟩ | ⟨_, h⟩ <;> exact ⟨_, h⟩
  | inc => exact ⟨_, execInc_of_lt hd⟩
  | dec => exact ⟨_, execDec_of_lt hd⟩
  | out =>
    cases hk : s.sink.poll.1 with
    | hold => exact ⟨_, execOut_of_hold hd hk⟩
    | take => exact ⟨_, execOut_of_take hd hk⟩
  | inp =>
    cases hk : s.input.poll.1 with
    | hold => exact ⟨_, execIn_of_hold hd hk⟩
    | deliver b => exact ⟨_, execIn_of_deliver hd hk⟩
    | ended => exact ⟨_, execIn_of_ended hd hk⟩
  | loop =>
    by_cases hz : s.cell = 0#c.cellW
    · simpa [execLoop_of_zero hd hz] using jumpPast_answers_next _ _ s
    · exact ⟨_, execLoop_of_ne_zero hd hz⟩
  | endloop =>
    by_cases hz : s.cell = 0#c.cellW
    · exact ⟨_, execEndloop_of_zero hd hz⟩
    · simpa [execEndloop_of_ne_zero hd hz] using jumpPast_answers_next _ _ s
  | nop b => exact ⟨_, rfl⟩

/-- A state that meets the invariant steps to a next state, at every configuration. -/
theorem stepAt_answers_next (h : s.Inv) : ∃ t, stepAt s = .next t := by
  by_cases hs : s.status = .running
  · rcases (h.pc_le hs).eq_or_lt with hp | hp
    · exact ⟨_, stepBy_of_end execAt hs hp⟩
    · rw [stepAt, stepBy_eq_run execAt hs hp]
      exact execAt_answers_next _ h.dp_lt
  · exact ⟨s, stepBy_of_not_running execAt hs⟩

/-- An instruction keeps STATUS, or it enters a fault at its own position. -/
theorem execAt_keeps_status_or_raises {i : Instr} (ht : execAt i s = .next t) :
    t.status = s.status ∨ ∃ r : FaultReport, r.pos = s.pc ∧ t = s.raise r := by
  cases i with
  | right =>
    rcases execRight_cases s with ⟨_, he⟩ | ⟨_, he⟩ <;> cases he.symm.trans ht
    · exact .inl rfl
    · exact .inr ⟨_, rfl, rfl⟩
  | left =>
    rcases execLeft_cases s with ⟨_, he⟩ | ⟨_, he⟩ <;> cases he.symm.trans ht
    · exact .inl rfl
    · exact .inr ⟨_, rfl, rfl⟩
  | inc =>
    obtain ⟨_, rfl⟩ := execInc_next ht
    exact .inl rfl
  | dec =>
    obtain ⟨_, rfl⟩ := execDec_next ht
    exact .inl rfl
  | out =>
    obtain ⟨_, ⟨_, rfl⟩ | ⟨_, rfl⟩⟩ := execOut_next ht <;> exact .inl rfl
  | inp =>
    obtain ⟨_, ⟨b, _, rfl⟩ | ⟨_, rfl⟩ | ⟨_, rfl⟩⟩ := execIn_next ht <;> exact .inl rfl
  | loop =>
    obtain ⟨_, ⟨_, rfl⟩ | ⟨_, m, _, rfl⟩ | ⟨_, _, rfl⟩⟩ := execLoop_next ht
    · exact .inl rfl
    · exact .inl rfl
    · exact .inr ⟨_, rfl, rfl⟩
  | endloop =>
    obtain ⟨_, ⟨_, rfl⟩ | ⟨_, m, _, rfl⟩ | ⟨_, _, rfl⟩⟩ := execEndloop_next ht
    · exact .inl rfl
    · exact .inl rfl
    · exact .inr ⟨_, rfl, rfl⟩
  | nop b =>
    obtain rfl := execNop_next b ht
    exact .inl rfl

/-- A running engine's step into FAULT is a fault entry at pc. -/
theorem stepAt_into_fault (hs : s.status = .running) (ht : stepAt s = .next t) (hf : t.status = .fault) :
    ∃ r : FaultReport, r.pos = s.pc ∧ t = s.raise r := by
  rcases stepBy_next ht with ⟨hn, _⟩ | ⟨_, _, rfl⟩ | ⟨_, _, he⟩
  · exact absurd hs hn
  · cases hf
  · rcases execAt_keeps_status_or_raises he with hk | hr
    · cases hf.symm.trans (hk.trans hs)
    · exact hr

end Equations

/-! ## The start event, and what the host sees of a fault -/

section HostView

variable {c : Config} {s t : State c}

/-- A start event that is not refused answers the start state of a program that PROG_LEN can hold. -/
theorem hostStart_next {l : Launch} (h : hostStart l s = .next t) :
    l.program.length ≤ c.maxProgLen ∧ t = startState l := by
  unfold hostStart at h
  split at h
  · cases h
  · split at h
    · cases h
    · next hlen =>
      cases h
      exact ⟨Nat.le_of_not_lt hlen, rfl⟩

/-- The start state meets the invariant on any tape that has a cell. -/
theorem startState_inv {l : Launch} (htape : 1 ≤ c.tapeLen) (hlen : l.program.length ≤ c.maxProgLen) :
    (startState l : State c).Inv :=
  (State.inv_iff_of_running rfl).mpr
    ⟨htape, hlen, rfl, rfl, Memory.wf_ofList l.program, Nat.zero_le _, rfl, rfl, rfl, rfl⟩

/-- Into a kept error log a first fault puts its report and the report's rendering. -/
theorem observe_raise_of_kept {r : FaultReport} (hlog : s.errlog = []) (hk : s.errSink = .kept) :
    (s.raise r).observe = ⟨some (.failed r.kind), s.out, some r, s.inPos⟩ ∧
      (s.raise r).errorLogBytes = Config.diagRender r := by
  have hseen : (s.raise r).reportsSeen = [r] := by simp [State.reportsSeen, hk, hlog]
  simp [State.observe, State.errorLogBytes, hseen, State.verdict]

/-- Into a discarding error log a fault puts nothing; its outcome is seen all the same. -/
theorem observe_raise_of_discarded {r : FaultReport} (hk : s.errSink = .discarded) :
    (s.raise r).observe = ⟨some (.failed r.kind), s.out, none, s.inPos⟩ ∧
      (s.raise r).errorLogBytes = [] := by
  have hseen : (s.raise r).reportsSeen = [] := by simp [State.reportsSeen, hk]
  simp [State.observe, State.errorLogBytes, hseen, State.verdict]

end HostView

end Sys2Proof.Machine

/-! ## The statements of the scope: every configuration, and the host's view of a fault -/

section ScopeStatements

open Sys2Proof Sys2Proof.Machine

/-- Settles O55: the instruction at pc, the completion and the halted engine each keep the invariant. -/
theorem stepKeepsInvariantAtEveryConfiguration : Obligations.StepKeepsInvariantAtEveryConfiguration := by
  unfold Obligations.StepKeepsInvariantAtEveryConfiguration
  exact fun c s t h ht => stepAt_keeps_inv h ht

/-- Settles O44: a step into FAULT is a fault entry at pc, on an error log that was empty. -/
theorem faultReachesHost : Obligations.FaultReachesHost := by
  unfold Obligations.FaultReachesHost
  intro s t h hs ht hf
  have hlog := h.errlog_eq_nil hs
  obtain ⟨r, hr, rfl⟩ := stepAt_into_fault hs (step_eq_stepAt s ▸ ht) hf
  exact ⟨r, hr, rfl, rfl, rfl, by simp [hlog], observe_raise_of_kept hlog,
    observe_raise_of_discarded (s := s)⟩

/-- Settles O54: the operand functions at the configured width, and a write seen by the reads after it. -/
theorem cellsFollowCellWidth : Obligations.CellsFollowCellWidth := by
  unfold Obligations.CellsFollowCellWidth
  intro c s hc hwf hd
  have hw : 8 ≤ c.cellW := by rcases hc.cellW_cases with h | h | h <;> omega
  have hsame (v : Cell c) : (s.tape.write s.dp v).read s.dp = v := Memory.read_write_self hwf s.dp v
  have hother (v : Cell c) : ∀ a, a ≠ s.dp → (s.tape.write s.dp v).read a = s.tape.read a :=
    fun a ha => Memory.read_write_of_ne hwf ha v
  refine ⟨⟨_, execInc_of_lt hd, ?_, hother _⟩, ⟨_, execDec_of_lt hd, ?_, hother _⟩, fun b hb => ?_, fun hk => ?_⟩
  · exact (congrArg BitVec.toNat (hsame _)).trans (cellInc_toNat _)
  · exact (congrArg BitVec.toNat (hsame _)).trans (cellDec_toNat (by omega) _)
  · exact ⟨_, execIn_of_deliver hd hb, (congrArg BitVec.toInt (hsame _)).trans (BitVec.toInt_signExtend_of_le hw),
      hother _⟩
  · exact ⟨_, _, execOut_of_take hd hk, byteOfCell_toNat _, rfl, rfl⟩

/-- Settles O56: the start state meets the invariant, and every step from a state that meets it goes on to one that does. -/
theorem startedExecutionRunsOnAtEveryConfiguration : Obligations.StartedExecutionRunsOnAtEveryConfiguration := by
  unfold Obligations.StartedExecutionRunsOnAtEveryConfiguration
  intro c l s t k ⟨_, htape, _⟩ ht
  obtain ⟨hlen, rfl⟩ := hostStart_next ht
  refine machineRun_goes_on (M := machineAt c) (P := State.Inv) (fun u hu => ?_) k (startState_inv htape hlen)
  obtain ⟨v, hv⟩ := stepAt_answers_next hu
  exact ⟨v, hv, stepAt_keeps_inv hu hv⟩

/-- Settles O51: the values are those of `Config.hw`, and `exec` and `step` are the configured ones. -/
theorem hardwareIsOneConfiguration : Obligations.HardwareIsOneConfiguration := by
  unfold Obligations.HardwareIsOneConfiguration
  exact ⟨Config.hw_legal, Config.hw_cellW, Config.hw_tapeLen, rfl, by decide, exec_eq_execAt, step_eq_stepAt, rfl⟩

/-- Settles O52: width 0 holds a tape of one cell, and a longer one needs the bits of its last index. -/
theorem dpWidthIsLeast : Obligations.DpWidthIsLeast := by
  unfold Obligations.DpWidthIsLeast
  intro c n
  unfold Config.dpW
  split
  · next h1 => exact ⟨fun _ => Nat.zero_le n, fun _ => h1.trans Nat.one_le_two_pow⟩
  · next h1 =>
    rw [Nat.succ_le_iff, Nat.log2_lt (by omega)]
    omega

/-- Settles O53: both moves go one cell except at the end of the configured tape, where they raise OutOfBounds. -/
theorem tapeEdgesFollowTapeLength : Obligations.TapeEdgesFollowTapeLength := by
  unfold Obligations.TapeEdgesFollowTapeLength
  intro c s _ hd
  exact ⟨fun h => execRight_of_ne_last (by omega), fun h => execRight_of_last (by omega),
    fun h => execLeft_of_ne_zero (by omega), execLeft_of_zero⟩

end ScopeStatements

namespace Sys2Proof.Machine

/-! ## The invariant of R31 on this hardware, after reset and in the host's registers -/

section HardwareInvariant

variable {s t : State}

/-- The tape of this hardware has a cell. -/
theorem one_le_hw_tapeLen : 1 ≤ Config.hw.tapeLen := by decide

/-- Every step of this hardware keeps the invariant. -/
theorem step_keeps_inv (h : s.Inv) (ht : step s = .next t) : t.Inv :=
  stepAt_keeps_inv h ((step_eq_stepAt s).symm.trans ht)

/-- A state that meets the invariant steps to a next state. -/
theorem step_answers_next (h : s.Inv) : ∃ t, step s = .next t :=
  (stepAt_answers_next h).imp fun _ ht => (step_eq_stepAt s).trans ht

/-- From a state that meets the invariant any number of steps goes on to one that does. -/
theorem run_goes_on_of_inv (h : s.Inv) (k : Nat) : ∃ u, core.run k s = .next u ∧ u.Inv :=
  run_goes_on (P := State.Inv)
    (fun _ hu => (step_answers_next hu).imp fun _ hv => ⟨hv, step_keeps_inv hu hv⟩) k h

end HardwareInvariant

section Registers

variable {c : Config} {s : State c}

/-- The state after `rst` meets the invariant on any tape that has a cell. -/
theorem State.initial_inv (htape : 1 ≤ c.tapeLen) : (State.initial : State c).Inv :=
  ⟨htape, Nat.zero_le _, rfl, rfl, rfl, nofun, nofun, nofun⟩

/-- PROG_LEN fits the program counter's width (R8). -/
theorem State.Inv.progLen_lt (h : s.Inv) : s.progLen < 2 ^ c.pcW := by
  obtain ⟨_, hlen, _⟩ := h
  exact Nat.lt_of_le_pred (Nat.two_pow_pos c.pcW) hlen

/-- In FAULT the faulting instruction stands inside the program, and FAULT_POS is its position. -/
theorem State.Inv.fault_position (h : s.Inv) (hs : s.status = .fault) : s.pc < s.progLen ∧ s.faultPos = s.pc := by
  obtain ⟨_, _, _, _, _, _, _, hfault⟩ := h
  obtain ⟨hpc, hpos, _⟩ := hfault hs
  exact ⟨hpc, hpos⟩

theorem State.Inv.progLenReg_toNat (h : s.Inv) : s.progLenReg.toNat = s.progLen :=
  (BitVec.toNat_ofNat ..).trans (Nat.mod_eq_of_lt h.progLen_lt)

theorem State.Inv.faultPosReg_toNat (h : s.Inv) (hs : s.status = .fault) : s.faultPosReg.toNat = s.pc := by
  obtain ⟨hpc, hpos⟩ := h.fault_position hs
  calc s.faultPosReg.toNat
    _ = s.faultPos % 2 ^ c.pcW := BitVec.toNat_ofNat ..
    _ = s.pc % 2 ^ c.pcW := by rw [hpos]
    _ = s.pc := Nat.mod_eq_of_lt (hpc.trans h.progLen_lt)

end Registers

end Sys2Proof.Machine

/-! ## The statements of the state: its invariant along steps and runs, and the host's registers -/

section StateStatements

open Sys2Proof Sys2Proof.Machine

/-- Settles O40: the invariant kept at every configuration, at the one of this hardware. -/
theorem stepKeepsStateInvariant : Obligations.StepKeepsStateInvariant := by
  unfold Obligations.StepKeepsStateInvariant
  exact fun s t h ht => step_keeps_inv h ht

/-- Settles O42: the start state meets the invariant, and a run from such a state goes on. -/
theorem startedExecutionRunsOn : Obligations.StartedExecutionRunsOn := by
  unfold Obligations.StartedExecutionRunsOn
  intro l s t k ht
  obtain ⟨hlen, rfl⟩ := hostStart_next ht
  exact run_goes_on_of_inv (startState_inv one_le_hw_tapeLen hlen) k

/-- Settles O5: STATUS is IDLE, so only the ranges and the forms of the two empty memories are asked for. -/
theorem resetMeetsInvariant : Obligations.ResetMeetsInvariant := by
  unfold Obligations.ResetMeetsInvariant
  exact State.initial_inv one_le_hw_tapeLen

/-- Settles O8: each code constructor by constructor; the two numbers fit PCW bits, so no register cuts them off. -/
theorem hostRegisterCodes : Obligations.HostRegisterCodes := by
  unfold Obligations.HostRegisterCodes
  refine ⟨fun s => ?_, fun s => ?_, fun s => ?_, fun s h => ⟨h.faultPosReg_toNat, h.progLenReg_toNat⟩⟩
  · unfold State.statusReg
    cases s.status <;> rfl
  · unfold State.faultKindReg
    rcases s.faultKind with _ | kind
    · rfl
    · cases kind <;> rfl
  · unfold State.faultDirReg
    cases s.faultDir <;> rfl

end StateStatements

namespace Sys2Proof.Machine

/-! ## What an instruction and a step may change of the memory spaces and the streams (spec/20_memory.md) -/

/-- The part of the state that belongs to the streams: what R54, R55 and R56 read and write, ERRLOG excepted. -/
structure StreamPart where
  input : InSource
  inPos : Nat
  sink : OutSink
  out : List Byte
  errSink : ErrSink

section MemoryFrame

variable {c : Config} {i : Instr} {s t u : State c}

/-- The stream part of a state. -/
def State.streams (s : State c) : StreamPart := ⟨s.input, s.inPos, s.sink, s.out, s.errSink⟩

/-- What `i` may have changed, from `s` to `t`, of the program, the tape and the streams. -/
structure MemoryEffect (i : Instr) (s t : State c) : Prop where
  prog : t.prog = s.prog
  progLen : t.progLen = s.progLen
  errSink : t.errSink = s.errSink
  tape : t.tape = s.tape ∨ (i = .inc ∨ i = .dec ∨ i = .inp) ∧ ∃ v, t.tape = s.tape.write s.dp v
  out : t.out = s.out ∨ i = .out ∧ ∃ b, t.out = s.out ++ [b]
  inPos : t.inPos = s.inPos ∨ i = .inp ∧ t.inPos = s.inPos + 1
  sink : i ≠ .out → t.sink = s.sink
  input : i ≠ .inp → t.input = s.input

/-- Of an instruction that leaves the program and the streams alone only the tape is to be looked at. -/
theorem MemoryEffect.of_streams (hprog : t.prog = s.prog) (hlen : t.progLen = s.progLen) (hstr : t.streams = s.streams)
    (htape : t.tape = s.tape ∨ (i = .inc ∨ i = .dec ∨ i = .inp) ∧ ∃ v, t.tape = s.tape.write s.dp v) :
    MemoryEffect i s t where
  prog := hprog
  progLen := hlen
  errSink := congrArg StreamPart.errSink hstr
  tape := htape
  out := .inl (congrArg StreamPart.out hstr)
  inPos := .inl (congrArg StreamPart.inPos hstr)
  sink := fun _ => congrArg StreamPart.sink hstr
  input := fun _ => congrArg StreamPart.input hstr

/-- The memory effect of every instruction: the moves and the brackets have none, `+` and `-` write the cell at dp, `.` may
append a byte, `,` may write the cell at dp and consume a byte. -/
theorem execAt_memoryEffect (ht : execAt i s = .next t) : MemoryEffect i s t := by
  cases i with
  | right =>
    rcases execRight_cases s with ⟨_, he⟩ | ⟨_, he⟩ <;> cases he.symm.trans ht <;>
      exact .of_streams rfl rfl rfl (.inl rfl)
  | left =>
    rcases execLeft_cases s with ⟨_, he⟩ | ⟨_, he⟩ <;> cases he.symm.trans ht <;>
      exact .of_streams rfl rfl rfl (.inl rfl)
  | inc =>
    obtain ⟨_, rfl⟩ := execInc_next ht
    exact .of_streams rfl rfl rfl (.inr ⟨.inl rfl, _, rfl⟩)
  | dec =>
    obtain ⟨_, rfl⟩ := execDec_next ht
    exact .of_streams rfl rfl rfl (.inr ⟨.inr (.inl rfl), _, rfl⟩)
  | out =>
    obtain ⟨_, ⟨_, rfl⟩ | ⟨_, rfl⟩⟩ := execOut_next ht
    · exact ⟨rfl, rfl, rfl, .inl rfl, .inr ⟨rfl, _, rfl⟩, .inl rfl, absurd rfl, fun _ => rfl⟩
    · exact ⟨rfl, rfl, rfl, .inl rfl, .inl rfl, .inl rfl, absurd rfl, fun _ => rfl⟩
  | inp =>
    obtain ⟨_, ⟨b, _, rfl⟩ | ⟨_, rfl⟩ | ⟨_, rfl⟩⟩ := execIn_next ht
    · exact ⟨rfl, rfl, rfl, .inr ⟨.inr (.inr rfl), _, rfl⟩, .inl rfl, .inr ⟨rfl, rfl⟩, fun _ => rfl, absurd rfl⟩
    · exact ⟨rfl, rfl, rfl, .inr ⟨.inr (.inr rfl), _, rfl⟩, .inl rfl, .inl rfl, fun _ => rfl, absurd rfl⟩
    · exact ⟨rfl, rfl, rfl, .inl rfl, .inl rfl, .inl rfl, fun _ => rfl, absurd rfl⟩
  | loop =>
    obtain ⟨_, ⟨_, rfl⟩ | ⟨_, m, _, rfl⟩ | ⟨_, _, rfl⟩⟩ := execLoop_next ht <;>
      exact .of_streams rfl rfl rfl (.inl rfl)
  | endloop =>
    obtain ⟨_, ⟨_, rfl⟩ | ⟨_, m, _, rfl⟩ | ⟨_, _, rfl⟩⟩ := execEndloop_next ht <;>
      exact .of_streams rfl rfl rfl (.inl rfl)
  | nop b =>
    obtain rfl := execNop_next b ht
    exact .of_streams rfl rfl rfl (.inl rfl)

/-- In canonical form, every cell but the one at dp reads as before. -/
theorem MemoryEffect.read_of_ne (h : MemoryEffect i s t) (hwf : s.tape.wf = true) {a : Nat} (ha : a ≠ s.dp) :
    t.tape.read a = s.tape.read a := by
  obtain htape | ⟨_, v, htape⟩ := h.tape
  · rw [htape]
  · rw [htape, Memory.read_write_of_ne hwf ha]

/-- An instruction that stores nothing keeps the tape. -/
theorem MemoryEffect.tape_eq (h : MemoryEffect i s t) (hinc : i ≠ .inc) (hdec : i ≠ .dec) (hinp : i ≠ .inp) :
    t.tape = s.tape :=
  h.tape.resolve_right fun ⟨hi, _⟩ => hi.elim hinc fun hi => hi.elim hdec hinp

theorem MemoryEffect.out_prefix (h : MemoryEffect i s t) : s.out <+: t.out := by
  obtain hout | ⟨_, b, hout⟩ := h.out
  · rw [hout]
  · exact hout ▸ List.prefix_append s.out [b]

theorem MemoryEffect.inPos_le (h : MemoryEffect i s t) : s.inPos ≤ t.inPos := by
  obtain hpos | ⟨_, hpos⟩ := h.inPos
  · exact hpos.ge
  · exact hpos ▸ Nat.le_succ s.inPos

/-- No step connects another error-log sink. -/
theorem stepAt_keeps_errSink (ht : stepAt s = .next t) : t.errSink = s.errSink := by
  rcases stepBy_next ht with ⟨_, rfl⟩ | ⟨_, _, rfl⟩ | ⟨_, _, he⟩
  · rfl
  · rfl
  · exact (execAt_memoryEffect he).errSink

/-- `u` has the output of `s` or more, has consumed the input of `s` or more, and holds the program of `s`. -/
def State.Extends (s u : State c) : Prop :=
  s.out <+: u.out ∧ s.inPos ≤ u.inPos ∧ u.prog = s.prog ∧ u.progLen = s.progLen

theorem State.Extends.refl (s : State c) : s.Extends s := ⟨List.prefix_rfl, le_rfl, rfl, rfl⟩

theorem State.Extends.trans (hst : s.Extends t) (htu : t.Extends u) : s.Extends u := by
  obtain ⟨hout, hpos, hprog, hlen⟩ := hst
  obtain ⟨hout', hpos', hprog', hlen'⟩ := htu
  exact ⟨hout.trans hout', hpos.trans hpos', hprog'.trans hprog, hlen'.trans hlen⟩

/-- Every step goes on from what stands there. -/
theorem stepAt_extends (ht : stepAt s = .next t) : s.Extends t := by
  rcases stepBy_next ht with ⟨_, rfl⟩ | ⟨_, _, rfl⟩ | ⟨_, _, he⟩
  · exact .refl t
  · exact ⟨List.prefix_rfl, le_rfl, rfl, rfl⟩
  · have heff := execAt_memoryEffect he
    exact ⟨heff.out_prefix, heff.inPos_le, heff.prog, heff.progLen⟩

end MemoryFrame

/-! ## Addresses outside the two spaces (log 9) -/

section OutsideAddresses

variable {c : Config} {s : State c}

/-- Each instruction that touches the tape stops by name where the tape has no cell. -/
theorem execAt_of_outside {i : Instr} (hi : i ∈ [Instr.inc, .dec, .out, .inp, .loop, .endloop])
    (hd : ¬ s.dp < c.tapeLen) : execAt i s = .fault .tapeAddress := by
  cases i with
  | inc | dec | out | inp | loop | endloop => exact onTape_of_ge hd _
  | right | left | nop b => simp at hi

/-- Above the program a running engine's step stops by name. -/
theorem stepBy_of_past_end (run : Instr → State c → Host.Outcome (State c) Fault Refusal) (hs : s.status = .running)
    (hp : s.progLen < s.pc) : stepBy run s = .fault .programAddress := by
  unfold stepBy
  rcases action_cases s with ⟨hn, _⟩ | ⟨_, he, _⟩ | ⟨_, hl, _⟩ | ⟨_, _, ha⟩
  · exact absurd hs hn
  · exact absurd he hp.ne'
  · exact absurd hl hp.asymm
  · rw [ha]

end OutsideAddresses

/-! ## The brackets of a zero and of a nonzero cell, match by match -/

section BracketEquations

variable {c : Config} {s : State c}

theorem execLoop_of_match {m : Nat} (hd : s.dp < c.tapeLen) (hz : s.cell = 0#c.cellW)
    (hm : matchFwd s.prog s.progLen s.pc = some m) : execLoop s = .next (s.jump m) := by
  rw [execLoop_of_zero hd hz, hm, jumpPast]

theorem execLoop_of_no_match (hd : s.dp < c.tapeLen) (hz : s.cell = 0#c.cellW)
    (hm : matchFwd s.prog s.progLen s.pc = none) : execLoop s = .next (s.raise ⟨.missingClosing, s.pc, .left⟩) := by
  rw [execLoop_of_zero hd hz, hm, jumpPast]

theorem execEndloop_of_match {m : Nat} (hd : s.dp < c.tapeLen) (hz : s.cell ≠ 0#c.cellW)
    (hm : matchBwd s.prog s.pc = some m) : execEndloop s = .next (s.jump m) := by
  rw [execEndloop_of_ne_zero hd hz, hm, jumpPast]

theorem execEndloop_of_no_match (hd : s.dp < c.tapeLen) (hz : s.cell ≠ 0#c.cellW)
    (hm : matchBwd s.prog s.pc = none) : execEndloop s = .next (s.raise ⟨.missingOpening, s.pc, .left⟩) := by
  rw [execEndloop_of_ne_zero hd hz, hm, jumpPast]

end BracketEquations

/-! ## Who sees the streams: an update of the stream part that an instruction does not look at commutes with it -/

section StreamUpdates

variable {c : Config} {i : Instr} {s t : State c} {p : StreamPart → StreamPart}

/-- Put another stream part in the place of the state's own. -/
def State.setStreams (s : State c) (e : StreamPart) : State c :=
  { s with input := e.input, inPos := e.inPos, sink := e.sink, out := e.out, errSink := e.errSink }

/-- Update the stream part of a state. -/
def State.mapStreams (p : StreamPart → StreamPart) (s : State c) : State c := s.setStreams (p s.streams)

/-- Another input source, and another count of the bytes consumed. -/
def StreamPart.withInput (k : InSource) (n : Nat) (e : StreamPart) : StreamPart := { e with input := k, inPos := n }

/-- Another output sink, and another output so far. -/
def StreamPart.withOutput (k : OutSink) (o : List Byte) (e : StreamPart) : StreamPart := { e with sink := k, out := o }

/-- Another error-log sink. -/
def StreamPart.withErrSink (k : ErrSink) (e : StreamPart) : StreamPart := { e with errSink := k }

theorem State.mapStreams_withInput (s : State c) (k : InSource) (n : Nat) :
    s.mapStreams (.withInput k n) = { s with input := k, inPos := n } := rfl

theorem State.mapStreams_withOutput (s : State c) (k : OutSink) (o : List Byte) :
    s.mapStreams (.withOutput k o) = { s with sink := k, out := o } := rfl

theorem State.mapStreams_withErrSink (s : State c) (k : ErrSink) :
    s.mapStreams (.withErrSink k) = { s with errSink := k } := rfl

/-- The update neither reads nor writes the input source and IN_POS. -/
def StreamPart.KeepsInput (p : StreamPart → StreamPart) : Prop :=
  ∀ (e : StreamPart) (k : InSource) (n : Nat), p (e.withInput k n) = (p e).withInput k n

/-- The update neither reads nor writes the output sink and OUT. -/
def StreamPart.KeepsOutput (p : StreamPart → StreamPart) : Prop :=
  ∀ (e : StreamPart) (k : OutSink) (o : List Byte), p (e.withOutput k o) = (p e).withOutput k o

theorem StreamPart.KeepsInput.mapStreams_eq (hp : StreamPart.KeepsInput p) (s : State c) :
    (s.mapStreams p).input = s.input ∧ (s.mapStreams p).inPos = s.inPos :=
  have h : p s.streams = (p s.streams).withInput s.input s.inPos := hp s.streams s.input s.inPos
  ⟨congrArg StreamPart.input h, congrArg StreamPart.inPos h⟩

theorem StreamPart.KeepsOutput.mapStreams_eq (hp : StreamPart.KeepsOutput p) (s : State c) :
    (s.mapStreams p).sink = s.sink ∧ (s.mapStreams p).out = s.out :=
  have h : p s.streams = (p s.streams).withOutput s.sink s.out := hp s.streams s.sink s.out
  ⟨congrArg StreamPart.sink h, congrArg StreamPart.out h⟩

theorem StreamPart.KeepsInput.mapStreams_comm (hp : StreamPart.KeepsInput p) (s : State c) (k : InSource) (n : Nat) :
    (s.mapStreams p).mapStreams (.withInput k n) = (s.mapStreams (.withInput k n)).mapStreams p :=
  congrArg s.setStreams (hp s.streams k n).symm

theorem StreamPart.KeepsOutput.mapStreams_comm (hp : StreamPart.KeepsOutput p) (s : State c) (k : OutSink)
    (o : List Byte) :
    (s.mapStreams p).mapStreams (.withOutput k o) = (s.mapStreams (.withOutput k o)).mapStreams p :=
  congrArg s.setStreams (hp s.streams k o).symm

/-- `.` does not see an update that keeps the output. -/
theorem execOut_mapStreams (hp : StreamPart.KeepsOutput p) (ht : execOut s = .next t) :
    execOut (s.mapStreams p) = .next (t.mapStreams p) := by
  obtain ⟨hsink, hout⟩ := hp.mapStreams_eq s
  obtain ⟨hd, ⟨hk, rfl⟩ | ⟨hk, rfl⟩⟩ := execOut_next ht
  · calc execOut (s.mapStreams p)
      _ = .next ((s.mapStreams p).mapStreams
            (.withOutput (s.mapStreams p).sink.poll.2 ((s.mapStreams p).out ++ [byteOfCell s.cell]))).advance :=
          execOut_of_take (s := s.mapStreams p) hd (hsink ▸ hk)
      _ = .next ((s.mapStreams (.withOutput s.sink.poll.2 (s.out ++ [byteOfCell s.cell]))).mapStreams p).advance := by
          rw [hsink, hout, hp.mapStreams_comm]
  · calc execOut (s.mapStreams p)
      _ = .next ((s.mapStreams p).mapStreams (.withOutput (s.mapStreams p).sink.poll.2 (s.mapStreams p).out)) :=
          execOut_of_hold (s := s.mapStreams p) hd (hsink ▸ hk)
      _ = .next ((s.mapStreams (.withOutput s.sink.poll.2 s.out)).mapStreams p) := by
          rw [hsink, hout, hp.mapStreams_comm]

/-- `,` does not see an update that keeps the input. -/
theorem execIn_mapStreams (hp : StreamPart.KeepsInput p) (ht : execIn s = .next t) :
    execIn (s.mapStreams p) = .next (t.mapStreams p) := by
  obtain ⟨hsrc, hpos⟩ := hp.mapStreams_eq s
  obtain ⟨hd, ⟨b, hk, rfl⟩ | ⟨hk, rfl⟩ | ⟨hk, rfl⟩⟩ := execIn_next ht
  · calc execIn (s.mapStreams p)
      _ = .next (((s.mapStreams p).mapStreams
            (.withInput (s.mapStreams p).input.poll.2 ((s.mapStreams p).inPos + 1))).putCell _).advance :=
          execIn_of_deliver (s := s.mapStreams p) hd (hsrc ▸ hk)
      _ = .next (((s.mapStreams (.withInput s.input.poll.2 (s.inPos + 1))).mapStreams p).putCell _).advance := by
          rw [hsrc, hpos, hp.mapStreams_comm]
  · calc execIn (s.mapStreams p)
      _ = .next (((s.mapStreams p).mapStreams
            (.withInput (s.mapStreams p).input.poll.2 (s.mapStreams p).inPos)).putCell _).advance :=
          execIn_of_ended (s := s.mapStreams p) hd (hsrc ▸ hk)
      _ = .next (((s.mapStreams (.withInput s.input.poll.2 s.inPos)).mapStreams p).putCell _).advance := by
          rw [hsrc, hpos, hp.mapStreams_comm]
  · calc execIn (s.mapStreams p)
      _ = .next ((s.mapStreams p).mapStreams (.withInput (s.mapStreams p).input.poll.2 (s.mapStreams p).inPos)) :=
          execIn_of_hold (s := s.mapStreams p) hd (hsrc ▸ hk)
      _ = .next ((s.mapStreams (.withInput s.input.poll.2 s.inPos)).mapStreams p) := by
          rw [hsrc, hpos, hp.mapStreams_comm]

/-- An instruction does the same after an update of the stream part that keeps the one stream it looks at, if any. -/
theorem execAt_mapStreams (hout : i = .out → StreamPart.KeepsOutput p) (hinp : i = .inp → StreamPart.KeepsInput p)
    (ht : execAt i s = .next t) : execAt i (s.mapStreams p) = .next (t.mapStreams p) := by
  cases i with
  | right =>
    rcases execRight_cases s with ⟨hd, he⟩ | ⟨hd, he⟩ <;> cases he.symm.trans ht
    · exact execRight_of_ne_last (s := s.mapStreams p) hd
    · exact execRight_of_last (s := s.mapStreams p) hd
  | left =>
    rcases execLeft_cases s with ⟨hd, he⟩ | ⟨hd, he⟩ <;> cases he.symm.trans ht
    · exact execLeft_of_ne_zero (s := s.mapStreams p) hd
    · exact execLeft_of_zero (s := s.mapStreams p) hd
  | inc =>
    obtain ⟨hd, rfl⟩ := execInc_next ht
    exact execInc_of_lt (s := s.mapStreams p) hd
  | dec =>
    obtain ⟨hd, rfl⟩ := execDec_next ht
    exact execDec_of_lt (s := s.mapStreams p) hd
  | out => exact execOut_mapStreams (hout rfl) ht
  | inp => exact execIn_mapStreams (hinp rfl) ht
  | loop =>
    obtain ⟨hd, ⟨hz, rfl⟩ | ⟨hz, m, hm, rfl⟩ | ⟨hz, hm, rfl⟩⟩ := execLoop_next ht
    · exact execLoop_of_ne_zero (s := s.mapStreams p) hd hz
    · exact execLoop_of_match (s := s.mapStreams p) hd hz hm
    · exact execLoop_of_no_match (s := s.mapStreams p) hd hz hm
  | endloop =>
    obtain ⟨hd, ⟨hz, rfl⟩ | ⟨hz, m, hm, rfl⟩ | ⟨hz, hm, rfl⟩⟩ := execEndloop_next ht
    · exact execEndloop_of_zero (s := s.mapStreams p) hd hz
    · exact execEndloop_of_match (s := s.mapStreams p) hd hz hm
    · exact execEndloop_of_no_match (s := s.mapStreams p) hd hz hm
  | nop b =>
    obtain rfl := execNop_next b ht
    rfl

/-- A step does the same after an update of the stream part that keeps both streams. -/
theorem stepAt_mapStreams (hout : StreamPart.KeepsOutput p) (hinp : StreamPart.KeepsInput p)
    (ht : stepAt s = .next t) : stepAt (s.mapStreams p) = .next (t.mapStreams p) := by
  rcases stepBy_next ht with ⟨hs, rfl⟩ | ⟨hs, hp, rfl⟩ | ⟨hs, hp, he⟩
  · exact stepBy_of_not_running (s := t.mapStreams p) execAt hs
  · exact stepBy_of_end (s := s.mapStreams p) execAt hs hp
  · exact (stepBy_eq_run (s := s.mapStreams p) execAt hs hp).trans
      (execAt_mapStreams (fun _ => hout) (fun _ => hinp) he)

theorem StreamPart.withInput_keepsOutput (k : InSource) (n : Nat) : StreamPart.KeepsOutput (StreamPart.withInput k n) :=
  fun _ _ _ => rfl

theorem StreamPart.withOutput_keepsInput (k : OutSink) (o : List Byte) :
    StreamPart.KeepsInput (StreamPart.withOutput k o) :=
  fun _ _ _ => rfl

theorem StreamPart.withErrSink_keepsOutput (k : ErrSink) : StreamPart.KeepsOutput (StreamPart.withErrSink k) :=
  fun _ _ _ => rfl

theorem StreamPart.withErrSink_keepsInput (k : ErrSink) : StreamPart.KeepsInput (StreamPart.withErrSink k) :=
  fun _ _ _ => rfl

end StreamUpdates

end Sys2Proof.Machine

/-! ## The statements of the memory spaces and the streams -/

section MemoryStatements

open Sys2Proof Sys2Proof.Machine

/-- Settles O30: an instruction writes the cell at dp or none, and a read elsewhere does not see the write. -/
theorem onlyPointedCellChanges : Obligations.OnlyPointedCellChanges := by
  unfold Obligations.OnlyPointedCellChanges
  intro i s t hwf ht
  have heff : MemoryEffect i s t := execAt_memoryEffect (exec_eq_execAt i s ▸ ht)
  exact ⟨fun a ha => heff.read_of_ne hwf ha, heff.tape_eq⟩

/-- Settles O31: neither the completion nor any instruction writes the program, PROG_LEN or the choice of the sink. -/
theorem programIsNeverWritten : Obligations.ProgramIsNeverWritten := by
  unfold Obligations.ProgramIsNeverWritten
  intro s t ht
  have ht : stepAt s = .next t := step_eq_stepAt s ▸ ht
  obtain ⟨_, _, hprog, hlen⟩ := stepAt_extends ht
  exact ⟨hprog, hlen, stepAt_keeps_errSink ht⟩

/-- Settles O32: the streams' share of what an instruction may change. -/
theorem streamsMoveOnlyByTheirInstruction : Obligations.StreamsMoveOnlyByTheirInstruction := by
  unfold Obligations.StreamsMoveOnlyByTheirInstruction
  intro i s t ht
  have heff : MemoryEffect i s t := execAt_memoryEffect (exec_eq_execAt i s ▸ ht)
  exact ⟨heff.out, heff.inPos, heff.sink, heff.input⟩

/-- Settles O33: another input keeps the output, which is all that an instruction other than `,` looks at. -/
theorem onlyInputInstructionSeesInput : Obligations.OnlyInputInstructionSeesInput := by
  unfold Obligations.OnlyInputInstructionSeesInput
  intro i s t k n hi ht
  rw [exec_eq_execAt] at ht ⊢
  simpa only [State.mapStreams_withInput] using
    execAt_mapStreams (fun _ => StreamPart.withInput_keepsOutput k n) (absurd · hi) ht

/-- Settles O34: another output keeps the input, which is all that an instruction other than `.` looks at. -/
theorem onlyOutputInstructionSeesSink : Obligations.OnlyOutputInstructionSeesSink := by
  unfold Obligations.OnlyOutputInstructionSeesSink
  intro i s t k o hi ht
  rw [exec_eq_execAt] at ht ⊢
  simpa only [State.mapStreams_withOutput] using
    execAt_mapStreams (absurd · hi) (fun _ => StreamPart.withOutput_keepsInput k o) ht

/-- Settles O43: every step of the run goes on from what stands there, and going on is transitive. -/
theorem outputOnlyGrowsAlongRuns : Obligations.OutputOnlyGrowsAlongRuns := by
  unfold Obligations.OutputOnlyGrowsAlongRuns
  intro s u k hu
  have hstep (v w : State) (hv : s.Extends v) (hw : step v = .next w) : s.Extends w :=
    hv.trans (stepAt_extends (step_eq_stepAt v ▸ hw))
  exact run_keeps hstep k (.refl s) hu

/-- Settles O58: another error-log sink keeps the input and the output, and nothing else of a step looks at a stream. -/
theorem errorSinkChangesNothingElse : Obligations.ErrorSinkChangesNothingElse := by
  unfold Obligations.ErrorSinkChangesNothingElse
  intro s t e ht
  rw [step_eq_stepAt] at ht ⊢
  simpa only [State.mapStreams_withErrSink] using
    stepAt_mapStreams (StreamPart.withErrSink_keepsOutput e) (StreamPart.withErrSink_keepsInput e) ht

/-- Settles O38: the tape access check and the fetch each stop by name. -/
theorem outsideAddressesStopByName : Obligations.OutsideAddressesStopByName := by
  unfold Obligations.OutsideAddressesStopByName
  refine ⟨fun i s hi hd => ?_, fun s hs hp => stepBy_of_past_end exec hs hp⟩
  rw [exec_eq_execAt]
  exact execAt_of_outside hi hd.not_gt

end MemoryStatements

namespace Sys2Proof

/-! ## The decoder against the encoder, and the number of bytes outside a list (spec/30_encoding.md) -/

section Encoding

variable {b : Byte} {i : Instr}

@[simp] theorem Instr.wf_nop : (Instr.nop b).wf = true ↔ b ∉ recognisedBytes := by
  simp [Instr.wf]

/-- The list of R61's table and the byte values that the decoder compares with are written apart; they agree. -/
theorem mem_recognisedBytes : b ∈ recognisedBytes ↔
    b = opRight ∨ b = opLeft ∨ b = opInc ∨ b = opDec ∨ b = opOut ∨ b = opIn ∨ b = opLoop ∨ b = opEndloop := by
  simp [recognisedBytes, opRight, opLeft, opInc, opDec, opOut, opIn, opLoop, opEndloop]

/-- No comparison of the decoder matches (R64). -/
theorem decode_of_not_mem (hb : b ∉ recognisedBytes) : decode b = .nop b := by
  simp only [mem_recognisedBytes, not_or] at hb
  simp [decode, hb]

/-- One row of R61's table for each recognised byte; every other byte is carried by its NOP (log 17). -/
theorem decode_wf_and_encode_decode (b : Byte) : (decode b).wf = true ∧ encode (decode b) = b := by
  by_cases hb : b ∈ recognisedBytes
  · rcases mem_recognisedBytes.mp hb with rfl | rfl | rfl | rfl | rfl | rfl | rfl | rfl <;> exact ⟨rfl, rfl⟩
  · rw [decode_of_not_mem hb]
    exact ⟨Instr.wf_nop.mpr hb, rfl⟩

/-- Only a NOP needs well-formedness: with a recognised byte it would decode to that byte's row. -/
theorem decode_encode (hi : i.wf = true) : decode (encode i) = i := by
  cases i with
  | nop b => exact decode_of_not_mem (Instr.wf_nop.mp hi)
  | right | left | inc | dec | out | inp | loop | endloop => rfl

end Encoding

section Counting

variable {w : Nat} {l : List (BitVec w)}

theorem exists_mem_toNat_eq_iff {n : Nat} : (∃ b ∈ l, b.toNat = n) ↔ n < 2 ^ w ∧ BitVec.ofNat w n ∈ l := by
  constructor
  · rintro ⟨b, hb, rfl⟩
    exact ⟨b.isLt, by simpa using hb⟩
  · rintro ⟨hn, hmem⟩
    exact ⟨_, hmem, (BitVec.toNat_ofNat n w).trans (Nat.mod_eq_of_lt hn)⟩

/-- The numbers of the listed vectors are as many as the vectors, since none is listed twice; the others are the rest. -/
theorem length_filter_not_contains (hl : l.Nodup) :
    ((List.range (2 ^ w)).filter fun n => !l.contains (BitVec.ofNat w n)).length = 2 ^ w - l.length := by
  have hlisted : ((List.range (2 ^ w)).filter fun n => l.contains (BitVec.ofNat w n)).Perm (l.map BitVec.toNat) :=
    (List.perm_ext_iff_of_nodup (List.nodup_range.filter _) (hl.map BitVec.toNat_injective)).mpr fun n => by
      simp [exists_mem_toNat_eq_iff]
  have hsplit := List.length_eq_length_filter_add (l := List.range (2 ^ w)) fun n => l.contains (BitVec.ofNat w n)
  rw [hlisted.length_eq, List.length_map, List.length_range] at hsplit
  exact (Nat.sub_eq_of_eq_add' hsplit).symm

end Counting

end Sys2Proof

/-! ## The statements of the encoding -/

section EncodingStatements

open Sys2Proof Sys2Proof.Machine

/-- Settles O1: the round trip from an instruction by its constructors, from a byte by whether it is recognised. -/
theorem encodedInstructionsDecodeBack : Obligations.EncodedInstructionsDecodeBack := by
  unfold Obligations.EncodedInstructionsDecodeBack
  exact ⟨fun _ hi => decode_encode hi, decode_wf_and_encode_decode⟩

/-- Settles O41: the decoder rejects no byte, and the invariant keeps pc and dp inside their spaces. -/
theorem stepNeverStopsOutsideSpec : Obligations.StepNeverStopsOutsideSpec := by
  unfold Obligations.StepNeverStopsOutsideSpec
  exact fun _ h => step_answers_next h

/-- Settles O2: each row of R61's table evaluated. -/
theorem tableBytesDecode : Obligations.TableBytesDecode := by
  unfold Obligations.TableBytesDecode
  decide

/-- Settles O3: the eight recognised bytes are distinct, so 256 - 8 are left. -/
theorem otherBytesAreNop : Obligations.OtherBytesAreNop := by
  unfold Obligations.OtherBytesAreNop
  have hdistinct : recognisedBytes.Nodup := by decide
  exact ⟨fun _ hb => decode_of_not_mem hb, length_filter_not_contains hdistinct⟩

end EncodingStatements

namespace Sys2Proof.Machine

/-! ## Where an instruction leaves the program counter (spec/40_dispatch.md R82) -/

section ProgramCounter

variable {c : Config} {i : Instr} {s t : State c} {n : Nat}

/-- The instruction asks a stream that has not answered: its step is a wait (R113). -/
def State.Held (s : State c) (i : Instr) : Prop :=
  i = .inp ∧ s.input.poll.1 = .hold ∨ i = .out ∧ s.sink.poll.1 = .hold

/-- `n` is the pc that R82 gives after the instruction: one past the match of a bracket that jumps, else the next position. -/
def State.PcAfter (s : State c) (i : Instr) (n : Nat) : Prop :=
  if i = .loop ∧ s.cell = 0#c.cellW then ∃ m, matchFwd s.prog s.progLen s.pc = some m ∧ n = m + 1
  else if i = .endloop ∧ s.cell ≠ 0#c.cellW then ∃ m, matchBwd s.prog s.pc = some m ∧ n = m + 1
  else n = s.pc + 1

@[simp] theorem State.held_inp : s.Held .inp ↔ s.input.poll.1 = .hold := by simp [State.Held]

@[simp] theorem State.held_out : s.Held .out ↔ s.sink.poll.1 = .hold := by simp [State.Held]

/-- Only `,` and `.` wait. -/
theorem State.not_held (hinp : i ≠ .inp) (hout : i ≠ .out) : ¬ s.Held i := by simp [State.Held, hinp, hout]

/-- Only a `[` on a zero cell and a `]` on a nonzero one jump. -/
theorem State.pcAfter_advance (hloop : i = .loop → s.cell ≠ 0#c.cellW) (hend : i = .endloop → s.cell = 0#c.cellW) :
    s.PcAfter i (s.pc + 1) := by
  rw [State.PcAfter, if_neg fun h => hloop h.1 h.2, if_neg fun h => h.2 (hend h.1)]

theorem State.pcAfter_loop_jump {m : Nat} (hz : s.cell = 0#c.cellW) (hm : matchFwd s.prog s.progLen s.pc = some m) :
    s.PcAfter .loop (m + 1) := by
  rw [State.PcAfter, if_pos ⟨rfl, hz⟩]
  exact ⟨m, hm, rfl⟩

theorem State.pcAfter_endloop_jump {m : Nat} (hz : s.cell ≠ 0#c.cellW) (hm : matchBwd s.prog s.pc = some m) :
    s.PcAfter .endloop (m + 1) := by
  rw [State.PcAfter, if_neg nofun, if_pos ⟨rfl, hz⟩]
  exact ⟨m, hm, rfl⟩

/-- From inside the program the next pc is never 0 and at most PROG_LEN, since a match lies inside the program. -/
theorem State.PcAfter.bounds (h : s.PcAfter i n) (hp : s.pc < s.progLen) : 1 ≤ n ∧ n ≤ s.progLen := by
  unfold State.PcAfter at h
  split at h
  · obtain ⟨m, hm, rfl⟩ := h
    exact ⟨Nat.succ_pos m, (matchFwd_some hm).2.1⟩
  · split at h
    · obtain ⟨m, hm, rfl⟩ := h
      exact ⟨Nat.succ_pos m, (matchBwd_some hm).1.trans hp⟩
    · exact h ▸ ⟨Nat.succ_pos s.pc, hp⟩

/-- From `s` to `t`, the instruction stayed where it was, faulted or held, or it went on to the pc that R82 gives. -/
inductive PcEffect (i : Instr) (s t : State c) : Prop
  | stays (why : t.status = .fault ∨ s.Held i) (pc : t.pc = s.pc)
  | goesOn (status : t.status = s.status) (answered : ¬ s.Held i) (pc : s.PcAfter i t.pc)

/-- Every instruction but the brackets and the stream accesses goes on to the next position, where it does not fault. -/
theorem PcEffect.of_advance (hi : i ∉ [Instr.inp, .out, .loop, .endloop]) (hstatus : t.status = s.status)
    (hpc : t.pc = s.pc + 1) : PcEffect i s t := by
  simp only [List.mem_cons, List.not_mem_nil, or_false, not_or] at hi
  obtain ⟨hinp, hout, hloop, hend⟩ := hi
  exact .goesOn hstatus (State.not_held hinp hout) (hpc ▸ State.pcAfter_advance (absurd · hloop) (absurd · hend))

/-- The program counter under every instruction. -/
theorem execAt_pcEffect (ht : execAt i s = .next t) : PcEffect i s t := by
  cases i with
  | right =>
    rcases execRight_cases s with ⟨_, he⟩ | ⟨_, he⟩ <;> cases he.symm.trans ht
    · exact .of_advance (by decide) rfl rfl
    · exact .stays (.inl rfl) rfl
  | left =>
    rcases execLeft_cases s with ⟨_, he⟩ | ⟨_, he⟩ <;> cases he.symm.trans ht
    · exact .of_advance (by decide) rfl rfl
    · exact .stays (.inl rfl) rfl
  | inc =>
    obtain ⟨_, rfl⟩ := execInc_next ht
    exact .of_advance (by decide) rfl rfl
  | dec =>
    obtain ⟨_, rfl⟩ := execDec_next ht
    exact .of_advance (by decide) rfl rfl
  | out =>
    obtain ⟨_, ⟨hk, rfl⟩ | ⟨hk, rfl⟩⟩ := execOut_next ht
    · exact .goesOn rfl (by simp [hk]) (State.pcAfter_advance nofun nofun)
    · exact .stays (.inr (State.held_out.mpr hk)) rfl
  | inp =>
    obtain ⟨_, ⟨b, hk, rfl⟩ | ⟨hk, rfl⟩ | ⟨hk, rfl⟩⟩ := execIn_next ht
    · exact .goesOn rfl (by simp [hk]) (State.pcAfter_advance nofun nofun)
    · exact .goesOn rfl (by simp [hk]) (State.pcAfter_advance nofun nofun)
    · exact .stays (.inr (State.held_inp.mpr hk)) rfl
  | loop =>
    have hheld : ¬ s.Held .loop := State.not_held nofun nofun
    obtain ⟨_, ⟨hz, rfl⟩ | ⟨hz, m, hm, rfl⟩ | ⟨_, _, rfl⟩⟩ := execLoop_next ht
    · exact .goesOn rfl hheld (State.pcAfter_advance (fun _ => hz) nofun)
    · exact .goesOn rfl hheld (State.pcAfter_loop_jump hz hm)
    · exact .stays (.inl rfl) rfl
  | endloop =>
    have hheld : ¬ s.Held .endloop := State.not_held nofun nofun
    obtain ⟨_, ⟨hz, rfl⟩ | ⟨hz, m, hm, rfl⟩ | ⟨_, _, rfl⟩⟩ := execEndloop_next ht
    · exact .goesOn rfl hheld (State.pcAfter_advance nofun fun _ => hz)
    · exact .goesOn rfl hheld (State.pcAfter_endloop_jump hz hm)
    · exact .stays (.inl rfl) rfl
  | nop b =>
    obtain rfl := execNop_next b ht
    exact .of_advance (by simp) rfl rfl

end ProgramCounter

/-! ## A byte placed at pc (log 3) -/

section PlacedByte

variable {c : Config}

/-- An opcode-table word of 8 bits is its own byte. -/
theorem tableByte_eight (w : Nat) : tableByte 8 w = BitVec.ofNat 8 w :=
  BitVec.eq_of_toNat_eq (by simp [tableByte])

/-- A program memory that holds one byte is the empty one with that byte written at 0. -/
theorem Memory.write_nil_zero {w : Nat} (v : BitVec w) : Memory.write [] 0 v = Memory.ofList [v] := rfl

/-- The step after a placed byte runs the instruction it decodes to, whatever the executor. -/
theorem stepBy_placeByte (run : Instr → State c → Host.Outcome (State c) Fault Refusal) (b : Byte) {s : State c}
    (hwf : s.prog.wf = true) : stepBy run (placeByte b s) = run (decode b) (placeByte b s) := by
  have hread : (placeByte b s).prog.read (placeByte b s).pc = b := Memory.read_write_self hwf s.pc b
  have hlt : (placeByte b s).pc < (placeByte b s).progLen := Nat.le_max_right s.progLen (s.pc + 1)
  rw [stepBy_eq_run run rfl hlt, hread]

/-- A byte placed after `rst` makes the start state of the one-byte program. -/
theorem placeByte_initial (b : Byte) :
    placeByte b (State.initial : State c) =
      startState ⟨[b], (State.initial : State c).input, (State.initial : State c).sink,
        (State.initial : State c).errSink⟩ := by
  rw [placeByte, startState, ← Memory.write_nil_zero]
  rfl

end PlacedByte

end Sys2Proof.Machine

/-! ## The statements of the dispatch -/

section DispatchStatements

open Sys2Proof Sys2Proof.Machine

/-- Settles O12: the placed byte is what the fetch reads, and the one write to the empty program memory makes the one-byte
program. -/
theorem placedWordRunsNext : Obligations.PlacedWordRunsNext := by
  unfold Obligations.PlacedWordRunsNext
  simp only [State.withFetchWord, tableByte_eight]
  exact ⟨fun _ w hwf => stepBy_placeByte exec (BitVec.ofNat 8 w) hwf, fun w => placeByte_initial (BitVec.ofNat 8 w)⟩

/-- Settles O35: by whether the instruction stayed or went on; from a RUNNING state going on is no fault. -/
theorem nextPcIsAdvanceOrMatch : Obligations.NextPcIsAdvanceOrMatch := by
  unfold Obligations.NextPcIsAdvanceOrMatch
  intro i s t hs hp ht
  cases execAt_pcEffect (exec_eq_execAt i s ▸ ht) with
  | stays why hpc =>
    exact ⟨fun _ => hpc, fun _ => hpc, fun hnofault hanswered => absurd why (not_or.mpr ⟨hnofault, hanswered⟩)⟩
  | goesOn hstatus hanswered hpc =>
    have hnofault : t.status ≠ .fault := by simp [hstatus, hs]
    obtain ⟨hpos, hle⟩ := hpc.bounds hp
    exact ⟨fun hf => absurd hf hnofault, fun hheld => absurd hheld hanswered, fun _ _ => ⟨hpos, hle, hpc⟩⟩

/-- Settles O9: inside the program the top of the step decides for the execution of the byte at pc. -/
theorem stepRunsDecodedInstruction : Obligations.StepRunsDecodedInstruction := by
  unfold Obligations.StepRunsDecodedInstruction
  exact fun _ hs hp => step_eq_exec hs hp

/-- Settles O10: the halting test stands before the fetch, and in DONE the engine does nothing. -/
theorem completionAtProgramEnd : Obligations.CompletionAtProgramEnd := by
  unfold Obligations.CompletionAtProgramEnd
  refine ⟨fun s hs hp => stepBy_of_end exec hs hp, fun s hs => stepBy_of_not_running exec ?_⟩
  simp [hs]

/-- Settles O13: the arm of NOP is the advance of pc. -/
theorem nopOnlyAdvances : Obligations.NopOnlyAdvances := by
  unfold Obligations.NopOnlyAdvances
  exact fun b s => exec_nop b s

end DispatchStatements

namespace Sys2Proof.Machine

/-! ## The data pointer under the instructions (spec/41_pointer.md) -/

section DataPointer

variable {c : Config} {i : Instr} {s t : State c}

/-- Where an instruction leaves the data pointer: `>` and `<` may move it by one, and nothing else moves it (R92). -/
theorem execAt_dp (ht : execAt i s = .next t) :
    t.dp = s.dp ∨ (i = .right ∧ t.dp = s.dp + 1) ∨ (i = .left ∧ t.dp + 1 = s.dp) := by
  cases i with
  | right =>
    rcases execRight_cases s with ⟨_, he⟩ | ⟨_, he⟩ <;> cases he.symm.trans ht
    · exact .inr (.inl ⟨rfl, rfl⟩)
    · exact .inl rfl
  | left =>
    rcases execLeft_cases s with ⟨hd, he⟩ | ⟨_, he⟩ <;> cases he.symm.trans ht
    · exact .inr (.inr ⟨rfl, Nat.succ_pred hd⟩)
    · exact .inl rfl
  | inc =>
    obtain ⟨_, rfl⟩ := execInc_next ht
    exact .inl rfl
  | dec =>
    obtain ⟨_, rfl⟩ := execDec_next ht
    exact .inl rfl
  | out =>
    obtain ⟨_, ⟨_, rfl⟩ | ⟨_, rfl⟩⟩ := execOut_next ht <;> exact .inl rfl
  | inp =>
    obtain ⟨_, ⟨b, _, rfl⟩ | ⟨_, rfl⟩ | ⟨_, rfl⟩⟩ := execIn_next ht <;> exact .inl rfl
  | loop =>
    obtain ⟨_, ⟨_, rfl⟩ | ⟨_, m, _, rfl⟩ | ⟨_, _, rfl⟩⟩ := execLoop_next ht <;> exact .inl rfl
  | endloop =>
    obtain ⟨_, ⟨_, rfl⟩ | ⟨_, m, _, rfl⟩ | ⟨_, _, rfl⟩⟩ := execEndloop_next ht <;> exact .inl rfl
  | nop b =>
    obtain rfl := execNop_next b ht
    exact .inl rfl

end DataPointer

/-! ## Several `>` in a row (R93) -/

section RightRuns

variable {s : State} {n : Nat}

/-- `n` cells to the right and `n` positions on, nothing else changed. -/
def State.rightBy {c : Config} (n : Nat) (s : State c) : State c := { s with dp := s.dp + n, pc := s.pc + n }

/-- One more execution after several. -/
theorem execTimes_succ_last {i : Instr} {t u : State} (h : execTimes i n s = .next t) (hu : exec i t = .next u) :
    execTimes i (n + 1) s = .next u :=
  calc execTimes i (n + 1) s
    _ = execTimes i 1 t := execTimes_add i 1 n h
    _ = execTimes i 0 u := execTimes_succ_of_next 0 hu
    _ = .next u := execTimes_zero i u

/-- As long as they stay on the tape, `n` executions of `>` only move. -/
theorem execTimes_right_of_lt (hn : s.dp + n < Config.hw.tapeLen) :
    execTimes .right n s = .next (s.rightBy n) := by
  induction n with
  | zero => rfl
  | succ n ih =>
    have hnotlast : (s.rightBy n).dp ≠ Config.hw.tapeLen - 1 := (Nat.lt_sub_of_add_lt (a := s.dp + n) hn).ne
    exact execTimes_succ_last (ih (Nat.lt_of_succ_lt hn)) (execRight_of_ne_last hnotlast)

/-- The `>` after the `n` that reach the last cell faults there, at its own position. -/
theorem execTimes_right_past_last (hn : s.dp + n = Config.hw.tapeLen - 1) :
    execTimes .right (n + 1) s = .next ((s.rightBy n).raise ⟨.outOfBounds, s.pc + n, .right⟩) := by
  have hreach : s.dp + n < Config.hw.tapeLen := hn ▸ Nat.sub_one_lt_of_lt one_le_hw_tapeLen
  exact execTimes_succ_last (execTimes_right_of_lt hreach) (execRight_of_last hn)

end RightRuns

end Sys2Proof.Machine

/-! ## The statements of the data pointer -/

section PointerStatements

open Sys2Proof Sys2Proof.Machine

/-- Settles O29: an instruction that does not keep dp is one of the two moves. -/
theorem onlyPointerMovesChangeDp : Obligations.OnlyPointerMovesChangeDp := by
  unfold Obligations.OnlyPointerMovesChangeDp
  intro i s t ht hne
  exact (execAt_dp (exec_eq_execAt i s ▸ ht)).resolve_left hne

/-- Settles O39: from cell 0 the number of moves is the cell reached, and TAPE_LEN is one more than the last cell's index. -/
theorem rightRunsToLastCellThenFaults : Obligations.RightRunsToLastCellThenFaults := by
  unfold Obligations.RightRunsToLastCellThenFaults
  intro s hd
  have hmoved (n : Nat) : s.rightBy n = { s with dp := n, pc := s.pc + n } := by
    rw [State.rightBy, hd, Nat.zero_add]
  constructor
  · intro n hn
    rw [← hmoved]
    exact execTimes_right_of_lt (by rwa [hd, Nat.zero_add])
  · have hfault := execTimes_right_past_last (s := s) (n := Config.hw.tapeLen - 1) (by rw [hd, Nat.zero_add])
    rwa [Nat.sub_add_cancel one_le_hw_tapeLen, hmoved] at hfault

/-- Settles O14: RIGHT by whether dp is the last cell. -/
theorem rightMovesOrFaults : Obligations.RightMovesOrFaults := by
  unfold Obligations.RightMovesOrFaults
  exact fun _ => ⟨execRight_of_ne_last, execRight_of_last⟩

/-- Settles O15: LEFT by whether dp is cell 0. -/
theorem leftMovesOrFaults : Obligations.LeftMovesOrFaults := by
  unfold Obligations.LeftMovesOrFaults
  exact fun _ => ⟨execLeft_of_ne_zero, execLeft_of_zero⟩

end PointerStatements

namespace Sys2Proof.Machine

/-! ## The arithmetic of one cell, at every width (R102) -/

section CellArithmetic

variable {w : Nat}

theorem cellInc_iterate_toNat (k : Nat) (v : BitVec w) : (cellInc^[k] v).toNat = (v.toNat + k) % 2 ^ w := by
  induction k with
  | zero => simp
  | succ k ih =>
    rw [Function.iterate_succ_apply', cellInc_toNat, ih, Nat.mod_add_mod, Nat.add_assoc]

/-- As many `-` as there were `+` restore the cell. -/
theorem cellDec_iterate_cellInc_iterate (k : Nat) (v : BitVec w) : cellDec^[k] (cellInc^[k] v) = v :=
  Function.LeftInverse.iterate cellDec_cellInc k v

theorem cellInc_iterate_two_pow (v : BitVec w) : cellInc^[2 ^ w] v = v :=
  BitVec.eq_of_toNat_eq <| by
    rw [cellInc_iterate_toNat, Nat.add_mod_right, Nat.mod_eq_of_lt v.isLt]

/-- The full cycle of `-` undoes that of `+`, which changes nothing. -/
theorem cellDec_iterate_two_pow (v : BitVec w) : cellDec^[2 ^ w] v = v := by
  have hundo := cellDec_iterate_cellInc_iterate (2 ^ w) v
  rwa [cellInc_iterate_two_pow] at hundo

theorem isZero_iff_toNat {v : BitVec w} : isZero v = true ↔ v.toNat = 0 := by
  rw [isZero_eq_true, ← BitVec.toNat_inj, BitVec.toNat_zero]

theorem isZero_iff_toInt {v : BitVec w} : isZero v = true ↔ v.toInt = 0 := by
  rw [isZero_eq_true, ← BitVec.toInt_inj, BitVec.toInt_zero]

end CellArithmetic

/-! ## One write to the cell at dp after another -/

/-- In canonical form, writing back what an overwritten cell read restores the memory. -/
theorem Memory.write_write_read {w : Nat} {m : Memory w} (h : m.wf = true) (a : Nat) (v : BitVec w) :
    (m.write a v).write a (m.read a) = m := by
  have hv : (m.write a v).wf = true := Memory.wf_write a v h
  refine Memory.eq_of_read (Memory.wf_write a _ hv) h fun b => ?_
  by_cases hb : b = a
  · rw [hb, Memory.read_write_self hv]
  · rw [Memory.read_write_of_ne hv hb, Memory.read_write_of_ne h hb]

section CellUpdates

variable {c : Config} {s : State c}

theorem State.cell_putCell (h : s.tape.wf = true) (v : Cell c) : (s.putCell v).cell = v :=
  Memory.read_write_self h s.dp v

/-- Two instructions that write the cell at dp, the second its first value, leave only pc changed. -/
theorem State.putCell_cell_after_putCell (h : s.tape.wf = true) (v : Cell c) :
    ((s.putCell v).advance.putCell s.cell).advance = { s with pc := s.pc + 2 } :=
  congrArg (fun m => { s with tape := m, pc := s.pc + 2 }) (Memory.write_write_read h s.dp v)

/-- `-` after `+`. -/
theorem execDec_of_execInc (h : s.tape.wf = true) (hd : s.dp < c.tapeLen) :
    execDec (s.putCell (cellInc s.cell)).advance = .next { s with pc := s.pc + 2 } := by
  rw [execDec_of_lt (s := (s.putCell _).advance) hd, State.advance_cell, State.cell_putCell h, cellDec_cellInc,
    State.putCell_cell_after_putCell h]

/-- `+` after `-`. -/
theorem execInc_of_execDec (h : s.tape.wf = true) (hd : s.dp < c.tapeLen) :
    execInc (s.putCell (cellDec s.cell)).advance = .next { s with pc := s.pc + 2 } := by
  rw [execInc_of_lt (s := (s.putCell _).advance) hd, State.advance_cell, State.cell_putCell h, cellInc_cellDec,
    State.putCell_cell_after_putCell h]

end CellUpdates

end Sys2Proof.Machine

/-! ## The statements of the cell arithmetic -/

section CellArithmeticStatements

open Sys2Proof Sys2Proof.Machine

/-- Settles O16: the cell as O54 gives it at the configuration of this hardware; the rest is untouched by a write and an
advance. -/
theorem incAddsOneToCell : Obligations.IncAddsOneToCell := by
  unfold Obligations.IncAddsOneToCell
  intro s hwf hd
  obtain ⟨⟨t, ht, hcell, hothers⟩, -⟩ := cellsFollowCellWidth Config.hw s Config.hw_legal hwf hd
  refine ⟨t, ht, hcell, hothers, ?_⟩
  obtain ⟨-, rfl⟩ := execInc_next ht
  rfl

/-- Settles O17: as O16, from the clause of O54 on DEC. -/
theorem decSubtractsOneFromCell : Obligations.DecSubtractsOneFromCell := by
  unfold Obligations.DecSubtractsOneFromCell
  intro s hwf hd
  obtain ⟨-, ⟨t, ht, hcell, hothers⟩, -⟩ := cellsFollowCellWidth Config.hw s Config.hw_legal hwf hd
  refine ⟨t, ht, hcell, hothers, ?_⟩
  obtain ⟨-, rfl⟩ := execDec_next ht
  rfl

/-- Settles O25: the count of increments modulo 2^N, and the decrements as its inverse. -/
theorem fullCycleRestoresCell : Obligations.FullCycleRestoresCell := by
  unfold Obligations.FullCycleRestoresCell
  intro w v
  refine ⟨cellInc_iterate_two_pow v, cellDec_iterate_two_pow v, cellInc_cellDec v,
    fun k => cellDec_iterate_cellInc_iterate k v, fun k => ?_, isZero_iff_toNat, isZero_iff_toInt⟩
  rw [cellInc_iterate_toNat, BitVec.toNat_zero, Nat.zero_add]

/-- Settles O26: the second instruction writes back the value that the first one overwrote. -/
theorem incAndDecUndoEachOther : Obligations.IncAndDecUndoEachOther := by
  unfold Obligations.IncAndDecUndoEachOther
  exact fun _ hwf hd =>
    ⟨⟨_, execInc_of_lt hd, execDec_of_execInc hwf hd⟩, _, execDec_of_lt hd, execInc_of_execDec hwf hd⟩

end CellArithmeticStatements

namespace Sys2Proof.Machine

/-! ## The cell of an input byte, at every width (R111, R112) -/

section InputByte

variable {w : Nat}

theorem cellOfByte_toInt (hw : 8 ≤ w) (b : Byte) : (cellOfByte w b).toInt = b.toInt := BitVec.toInt_signExtend_of_le hw

/-- The signed value of a byte by its sign bit. -/
theorem byte_toInt (b : Byte) : b.toInt = if b.toNat < 0x80 then (b.toNat : Int) else b.toNat - 256 := by
  rw [BitVec.toInt_eq_toNat_cond]
  split_ifs <;> omega

/-- The unsigned value: the byte, with ones above it from 0x80 up. -/
theorem cellOfByte_toNat (hw : 8 ≤ w) (b : Byte) :
    (cellOfByte w b).toNat = b.toNat + if b.toNat < 0x80 then 0 else 2 ^ w - 256 := by
  have hfit : b.toNat < 2 ^ w := b.isLt.trans_le (Nat.pow_le_pow_right two_pos hw)
  have hsign : b.msb = decide (128 ≤ b.toNat) := BitVec.msb_eq_decide b
  rw [cellOfByte, BitVec.toNat_signExtend, BitVec.toNat_setWidth, Nat.mod_eq_of_lt hfit, hsign]
  by_cases hb : b.toNat < 0x80
  · simp [hb]
  · simp [hb, Nat.le_of_not_lt hb]

/-- Truncation undoes the sign extension (R114). -/
theorem byteOfCell_cellOfByte (hw : 8 ≤ w) (b : Byte) : byteOfCell (cellOfByte w b) = b := by
  refine BitVec.eq_of_getLsbD_eq fun i hi => ?_
  have hiw : i < w := hi.trans_le hw
  rw [byteOfCell, cellOfByte, BitVec.getLsbD_setWidth, BitVec.getLsbD_signExtend]
  simp [hi, hiw]

end InputByte

/-! ## What `,` and `.` do with the answers of their streams -/

section StreamAnswers

variable {c : Config} {s t : State c}

/-- An OUT that goes on has used up one move of the sink. -/
theorem execOut_next_sink (ht : execOut s = .next t) : t.sink = s.sink.poll.2 := by
  obtain ⟨_, ⟨_, rfl⟩ | ⟨_, rfl⟩⟩ := execOut_next ht <;> rfl

/-- An IN that goes on has used up one move of the source. -/
theorem execIn_next_input (ht : execIn s = .next t) : t.input = s.input.poll.2 := by
  obtain ⟨_, ⟨b, _, rfl⟩ | ⟨_, rfl⟩ | ⟨_, rfl⟩⟩ := execIn_next ht <;> rfl

/-- A sink that holds and stays as it is leaves the whole state as it is. -/
theorem execOut_of_hold_self (hd : s.dp < c.tapeLen) (hk : s.sink.poll = (.hold, s.sink)) : execOut s = .next s := by
  rw [execOut_of_hold hd (by rw [hk]), hk]

/-- A source that holds and stays as it is leaves the whole state as it is. -/
theorem execIn_of_hold_self (hd : s.dp < c.tapeLen) (hk : s.input.poll = (.hold, s.input)) : execIn s = .next s := by
  rw [execIn_of_hold hd (by rw [hk]), hk]

theorem InSource.poll_silent : InSource.poll ⟨[], .silent⟩ = (.hold, ⟨[], .silent⟩) := rfl

theorem OutSink.poll_blocks : OutSink.poll ⟨[], .blocks⟩ = (.hold, ⟨[], .blocks⟩) := rfl

/-- After an IN that was given `b`, an OUT whose byte is taken outputs `b` (R114). -/
theorem execOut_after_execIn {b : Byte} (hw : 8 ≤ c.cellW) (hwf : s.tape.wf = true) (hd : s.dp < c.tapeLen)
    (hin : s.input.poll.1 = .deliver b) (hout : s.sink.poll.1 = .take) :
    ∃ t u : State c, execIn s = .next t ∧ execOut t = .next u ∧ u.out = s.out ++ [b] := by
  refine ⟨_, _, execIn_of_deliver hd hin, execOut_of_take hd hout, ?_⟩
  have hcell := State.cell_putCell (s := { s with input := s.input.poll.2, inPos := s.inPos + 1 }) hwf
    (cellOfByte c.cellW b)
  have hbyte := (congrArg byteOfCell hcell).trans (byteOfCell_cellOfByte hw b)
  exact congrArg (s.out ++ [·]) hbyte

end StreamAnswers

/-- Where the step answers the state itself, every run does. -/
theorem run_of_step_self {s : State} (h : step s = .next s) (k : Nat) : core.run k s = .next s := by
  obtain ⟨_, hrun, rfl⟩ := run_goes_on (P := (· = s)) (fun _ hu => ⟨s, hu ▸ h, rfl⟩) k rfl
  exact hrun

end Sys2Proof.Machine

/-! ## The statements of input and output -/

section StreamIoStatements

open Sys2Proof Sys2Proof.Machine

/-- Settles O19: the value written by each answer of the source is what the cell at dp reads afterwards. -/
theorem inStoresByteOrZero : Obligations.InStoresByteOrZero := by
  unfold Obligations.InStoresByteOrZero
  intro s hwf hd
  have hsame (v : Cell Config.hw) : (s.tape.write s.dp v).read s.dp = v := Memory.read_write_self hwf s.dp v
  have hother (v : Cell Config.hw) : ∀ a, a ≠ s.dp → (s.tape.write s.dp v).read a = s.tape.read a :=
    fun a ha => Memory.read_write_of_ne hwf ha v
  constructor
  · intro b hb
    have hvalue := (congrArg BitVec.toInt (hsame _)).trans (cellOfByte_toInt (by decide) b)
    exact ⟨_, s.input.poll.2, execIn_of_deliver hd hb, hvalue, hother _, rfl⟩
  · intro hend
    exact ⟨_, s.input.poll.2, execIn_of_ended hd hend, hsame _, hother _, rfl⟩

/-- Settles O23: the held instruction answers the state itself, its stream being as it was. -/
theorem silentStreamsHoldForEver : Obligations.SilentStreamsHoldForEver := by
  unfold Obligations.SilentStreamsHoldForEver
  intro s k hs hp hd hstream
  refine run_of_step_self ?_ k
  rw [step_eq_exec hs hp]
  rcases hstream with ⟨hinstr, hsource⟩ | ⟨hinstr, hsink⟩
  · rw [hinstr, exec_inp, execIn_of_hold_self hd (hsource ▸ InSource.poll_silent)]
  · rw [hinstr, exec_out, execOut_of_hold_self hd (hsink ▸ OutSink.poll_blocks)]

/-- Settles O27: signed value, low byte and unsigned value of a sign-extended byte, each a lemma at every width. -/
theorem inputByteIsSignExtended : Obligations.InputByteIsSignExtended := by
  unfold Obligations.InputByteIsSignExtended
  constructor
  · intro w b hw
    refine ⟨(cellOfByte_toInt hw b).trans (byte_toInt b), byteOfCell_cellOfByte hw b, fun hb => ?_⟩
    rw [cellOfByte_toNat hw, if_pos hb, Nat.add_zero]
  · intro b hb
    have hneg (w : Nat) (hw : 8 ≤ w) : (cellOfByte w b).toNat = 2 ^ w - 256 + b.toNat := by
      rw [cellOfByte_toNat hw, if_neg hb.not_gt, Nat.add_comm]
    exact ⟨by simpa using hneg 8, by simpa using hneg 16, by simpa using hneg 32⟩

/-- Settles O28: the cell that `,` wrote is the one `.` truncates. -/
theorem inputThenOutputEchoes : Obligations.InputThenOutputEchoes := by
  unfold Obligations.InputThenOutputEchoes
  exact fun _ _ => execOut_after_execIn (by decide)

/-- Settles O18: the low 8 bits as the value modulo 256. -/
theorem outAppendsLowByte : Obligations.OutAppendsLowByte := by
  unfold Obligations.OutAppendsLowByte
  exact fun s hd hk => ⟨byteOfCell s.cell, s.sink.poll.2, byteOfCell_toNat _, execOut_of_take hd hk⟩

/-- Settles O22: a hold changes the stream alone, and every IN and every OUT that goes on polls its stream once. -/
theorem unansweredStreamHoldsStep : Obligations.UnansweredStreamHoldsStep := by
  unfold Obligations.UnansweredStreamHoldsStep
  exact ⟨fun _ => execIn_of_hold, fun _ => execOut_of_hold, fun _ _ => execIn_next_input, fun _ _ => execOut_next_sink⟩

end StreamIoStatements

namespace Sys2Proof.Machine

/-! ## The balance of the brackets before a position (spec/44_loop.md R126) -/

section BracketHeight

variable {prog : Memory 8} {g : Int} {a b lo hi len n p s : Nat}

/-- The number of `[` less the number of `]` before position `n`: the balances of R126 are its differences. -/
def height (prog : Memory 8) (n : Nat) : Int :=
  (countBytes prog opLoop 0 n : Int) - countBytes prog opEndloop 0 n

@[simp] theorem height_zero (prog : Memory 8) : height prog 0 = 0 := rfl

theorem countBytes_add (prog : Memory 8) (c : Byte) (lo n k : Nat) :
    countBytes prog c lo (n + k) = countBytes prog c lo n + countBytes prog c (lo + n) k := by
  induction k with
  | zero => rfl
  | succ k ih => rw [← Nat.add_assoc, countBytes, countBytes, ih, Nat.add_assoc, Nat.add_assoc]

theorem bal_eq_height_sub (h : p ≤ s) : bal prog p s = height prog (s + 1) - height prog (p + 1) := by
  have hsplit (c : Byte) := countBytes_add prog c 0 (p + 1) (s - p)
  rw [show p + 1 + (s - p) = s + 1 by omega, Nat.zero_add] at hsplit
  simp only [bal, height, hsplit]
  omega

theorem lab_eq_height_sub (h : s ≤ p) : lab prog s p = height prog s - height prog p := by
  have hsplit (c : Byte) := countBytes_add prog c 0 s (p - s)
  rw [Nat.add_sub_cancel' h, Nat.zero_add] at hsplit
  simp only [lab, height, hsplit]
  omega

/-- One character on, a `[` raises the height by one, a `]` lowers it by one and anything else keeps it. -/
theorem height_succ_cases (prog : Memory 8) (n : Nat) :
    (prog.read n = opLoop ∧ height prog (n + 1) = height prog n + 1) ∨
    (prog.read n = opEndloop ∧ height prog (n + 1) = height prog n - 1) ∨
    (prog.read n ≠ opLoop ∧ prog.read n ≠ opEndloop ∧ height prog (n + 1) = height prog n) := by
  have hne : opLoop ≠ opEndloop := by decide
  by_cases ho : prog.read n = opLoop
  · refine .inl ⟨ho, ?_⟩
    simp [height, countBytes, ho, hne]
    omega
  · by_cases hc : prog.read n = opEndloop
    · refine .inr (.inl ⟨hc, ?_⟩)
      simp [height, countBytes, hc, hne.symm]
      omega
    · exact .inr (.inr ⟨ho, hc, by simp [height, countBytes, ho, hc]⟩)

theorem height_succ_open (h : prog.read n = opLoop) : height prog (n + 1) = height prog n + 1 := by
  rcases height_succ_cases prog n with ⟨_, hs⟩ | ⟨hc, _⟩ | ⟨ho, _⟩
  · exact hs
  · exact absurd (h.symm.trans hc) (by decide)
  · exact absurd h ho

theorem height_succ_close (h : prog.read n = opEndloop) : height prog (n + 1) = height prog n - 1 := by
  rcases height_succ_cases prog n with ⟨ho, _⟩ | ⟨_, hs⟩ | ⟨_, hc, _⟩
  · exact absurd (ho.symm.trans h) (by decide)
  · exact hs
  · exact absurd h hc

theorem height_succ_other (ho : prog.read n ≠ opLoop) (hc : prog.read n ≠ opEndloop) :
    height prog (n + 1) = height prog n := by
  rcases height_succ_cases prog n with ⟨h, _⟩ | ⟨h, _⟩ | ⟨_, _, hs⟩
  · exact absurd h ho
  · exact absurd h hc
  · exact hs

/-- A positive DEPTH follows the height in a forward scan. -/
theorem depthFwd_eq_height {d : Nat} (hd : 0 < d) (h : height prog n = g + d) :
    height prog (n + 1) = g + (depthFwd (prog.read n) d : Int) := by
  rcases height_succ_cases prog n with ⟨hr, hs⟩ | ⟨hr, hs⟩ | ⟨ho, hc, hs⟩
  · rw [hr, depthFwd_open]; omega
  · rw [hr, depthFwd_close]; omega
  · rw [depthFwd_other ho hc]; omega

/-- A positive DEPTH follows the height in a backward scan. -/
theorem depthBwd_eq_height {d : Nat} (hd : 0 < d) (h : height prog (n + 1) = g + d) :
    height prog n = g + (depthBwd (prog.read n) d : Int) := by
  rcases height_succ_cases prog n with ⟨hr, hs⟩ | ⟨hr, hs⟩ | ⟨ho, hc, hs⟩
  · rw [hr, depthBwd_open]; omega
  · rw [hr, depthBwd_close]; omega
  · rw [depthBwd_other ho hc]; omega

/-- A program is well formed (R129) when its height is never negative and ends at 0. -/
theorem wellFormedProgram_iff :
    wellFormedProgram prog len ↔ (∀ n, n ≤ len → 0 ≤ height prog n) ∧ height prog len = 0 := by
  unfold wellFormedProgram height
  refine and_congr (forall₂_congr fun n _ => ?_) ?_ <;> omega

/-- After `lo`, up to and with `hi`, the height stays above `g`. -/
def StaysAbove (prog : Memory 8) (g : Int) (lo hi : Nat) : Prop := ∀ n, lo < n → n ≤ hi → g < height prog n

theorem StaysAbove.of_succ (hlo : g < height prog (lo + 1)) (h : StaysAbove prog g (lo + 1) hi) :
    StaysAbove prog g lo hi := fun n hl hh =>
  (Nat.eq_or_lt_of_le hl).elim (fun he => he ▸ hlo) fun hlt => h n hlt hh

theorem StaysAbove.succ (h : StaysAbove prog g lo hi) (hhi : g < height prog (hi + 1)) :
    StaysAbove prog g lo (hi + 1) := fun n hl hh =>
  (Nat.eq_or_lt_of_le hh).elim (fun he => he ▸ hhi) fun hlt => h n hl (Nat.le_of_lt_succ hlt)

/-! The scans in terms of the height: each stops where the height first comes down to its level. -/

/-- A forward scan whose DEPTH is the height above `g` finds the first position after which the height is `g`, or the height
stays above. -/
theorem scanFwd_cases : {left p d : Nat} → 0 < d → height prog (p + 1) = g + d →
    (∃ m, scanFwd prog left p d = some m ∧ p < m ∧ m ≤ p + left ∧ height prog (m + 1) = g ∧ StaysAbove prog g p m) ∨
    (scanFwd prog left p d = none ∧ StaysAbove prog g p (p + left + 1))
  | 0, p, d, hd, h => .inr ⟨rfl, .of_succ (by omega) fun n hl hh => by omega⟩
  | left + 1, p, d, hd, h => by
    have habove : g < height prog (p + 1) := by omega
    have hnext := depthFwd_eq_height hd h
    rw [scanFwd_succ]
    split
    · next h0 =>
      exact .inl ⟨p + 1, rfl, by omega, by omega, by omega, .of_succ habove fun n hl hh => by omega⟩
    · next h0 =>
      rcases scanFwd_cases (left := left) (Nat.pos_of_ne_zero h0) hnext with ⟨m, hm, hlt, hle, hg, hin⟩ | ⟨hn, hin⟩
      · exact .inl ⟨m, hm, by omega, by omega, hg, .of_succ habove hin⟩
      · refine .inr ⟨hn, .of_succ habove ?_⟩
        rwa [Nat.add_right_comm p 1 left] at hin

/-- A backward scan whose DEPTH is the height above `g` finds the last position before which the height is `g`, or has stayed
above from the start. -/
theorem scanBwd_cases : {p d : Nat} → 0 < d → height prog p = g + d →
    (∃ m, scanBwd prog p d = some m ∧ m < p ∧ height prog m = g ∧ StaysAbove prog g m p) ∨
    (scanBwd prog p d = none ∧ ∀ n, n ≤ p → g < height prog n)
  | 0, d, hd, h => .inr ⟨rfl, fun n hn => by rw [Nat.le_zero.mp hn]; omega⟩
  | p + 1, d, hd, h => by
    have habove : g < height prog (p + 1) := by omega
    have hnext := depthBwd_eq_height hd h
    rw [scanBwd_succ]
    split
    · next h0 => exact .inl ⟨p, rfl, by omega, by omega, .of_succ habove fun n hl hh => by omega⟩
    · next h0 =>
      rcases scanBwd_cases (Nat.pos_of_ne_zero h0) hnext with ⟨m, hm, hlt, hg, hin⟩ | ⟨hn, hin⟩
      · exact .inl ⟨m, hm, by omega, hg, hin.succ habove⟩
      · exact .inr ⟨hn, fun n hn => (Nat.eq_or_lt_of_le hn).elim (fun he => he ▸ habove)
          fun hlt => hin n (Nat.le_of_lt_succ hlt)⟩

/-- MatchFwd scans for the height one below that after position `p`: at a `[`, the height before it. -/
theorem matchFwd_cases (len : Nat) (h : height prog (p + 1) = g + 1) :
    (∃ m, matchFwd prog len p = some m ∧ p < m ∧ m < len ∧ height prog (m + 1) = g ∧ StaysAbove prog g p m) ∨
    (matchFwd prog len p = none ∧ StaysAbove prog g p len) := by
  rcases scanFwd_cases (left := len - 1 - p) Nat.one_pos h with ⟨m, hm, hlt, hle, hg, hin⟩ | ⟨hn, hin⟩
  · exact .inl ⟨m, hm, hlt, by omega, hg, hin⟩
  · exact .inr ⟨hn, fun n hl hh => hin n hl (by omega)⟩

/-- MatchBwd scans for the height one below that before position `p`: at a `]`, the height after it. -/
theorem matchBwd_cases (h : height prog p = g + 1) :
    (∃ m, matchBwd prog p = some m ∧ m < p ∧ height prog m = g ∧ StaysAbove prog g m p) ∨
    (matchBwd prog p = none ∧ ∀ n, n ≤ p → g < height prog n) :=
  scanBwd_cases Nat.one_pos h

/-! The closed forms of R126: a balance of -1 is a height one below the one that the scan starts from. -/

theorem bal_eq_neg_one_iff (h : height prog (p + 1) = g + 1) (hs : p < s) :
    bal prog p s = -1 ↔ height prog (s + 1) = g := by
  rw [bal_eq_height_sub hs.le]
  omega

theorem lab_eq_neg_one_iff (h : height prog p = g + 1) (hs : s < p) : lab prog s p = -1 ↔ height prog s = g := by
  rw [lab_eq_height_sub hs.le]
  omega

/-- `m` is the least position after `p`, inside the program, of balance -1. -/
def LeastBalance (prog : Memory 8) (len p m : Nat) : Prop :=
  p < m ∧ m < len ∧ bal prog p m = -1 ∧ ∀ s, p < s → s < m → bal prog p s ≠ -1

/-- `m` is the greatest position before `p` of balance -1. -/
def GreatestBalance (prog : Memory 8) (p m : Nat) : Prop :=
  m < p ∧ lab prog m p = -1 ∧ ∀ s, m < s → s < p → lab prog s p ≠ -1

theorem LeastBalance.unique {m m' : Nat} (h : LeastBalance prog len p m) (h' : LeastBalance prog len p m') : m = m' := by
  obtain ⟨hlt, _, hbal, hleast⟩ := h
  obtain ⟨hlt', _, hbal', hleast'⟩ := h'
  exact le_antisymm (le_of_not_gt fun hm => hleast m' hlt' hm hbal') (le_of_not_gt fun hm => hleast' m hlt hm hbal)

theorem GreatestBalance.unique {m m' : Nat} (h : GreatestBalance prog p m) (h' : GreatestBalance prog p m') : m = m' := by
  obtain ⟨hlt, hlab, hgreatest⟩ := h
  obtain ⟨hlt', hlab', hgreatest'⟩ := h'
  exact le_antisymm (le_of_not_gt fun hm => hgreatest' m hm hlt hlab) (le_of_not_gt fun hm => hgreatest m' hm hlt' hlab')

theorem read_of_matchFwd {m : Nat} (h : matchFwd prog len p = some m) : prog.read m = opEndloop := by
  obtain ⟨_, _, hread⟩ := matchFwd_some h
  exact hread

theorem read_of_matchBwd {m : Nat} (h : matchBwd prog p = some m) : prog.read m = opLoop := by
  obtain ⟨_, hread⟩ := matchBwd_some h
  exact hread

/-- The forward scan finds the least position of balance -1, or there is no position of balance -1. -/
theorem matchFwd_balance_cases (prog : Memory 8) (len p : Nat) :
    (∃ m, matchFwd prog len p = some m ∧ LeastBalance prog len p m) ∨
    (matchFwd prog len p = none ∧ ∀ s, p < s → s < len → bal prog p s ≠ -1) := by
  have h : height prog (p + 1) = height prog (p + 1) - 1 + 1 := by omega
  rcases matchFwd_cases len h with ⟨m, hm, hlt, hlen, hg, hin⟩ | ⟨hn, hin⟩
  · refine .inl ⟨m, hm, hlt, hlen, (bal_eq_neg_one_iff h hlt).mpr hg, fun s hs hsm hbal => ?_⟩
    exact (hin (s + 1) (by omega) hsm).ne' ((bal_eq_neg_one_iff h hs).mp hbal)
  · refine .inr ⟨hn, fun s hs hsl hbal => ?_⟩
    exact (hin (s + 1) (by omega) hsl).ne' ((bal_eq_neg_one_iff h hs).mp hbal)

/-- The backward scan finds the greatest position of balance -1, or there is no position of balance -1. -/
theorem matchBwd_balance_cases (prog : Memory 8) (p : Nat) :
    (∃ m, matchBwd prog p = some m ∧ GreatestBalance prog p m) ∨
    (matchBwd prog p = none ∧ ∀ s, s < p → lab prog s p ≠ -1) := by
  have h : height prog p = height prog p - 1 + 1 := by omega
  rcases matchBwd_cases h with ⟨m, hm, hlt, hg, hin⟩ | ⟨hn, hin⟩
  · refine .inl ⟨m, hm, hlt, (lab_eq_neg_one_iff h hlt).mpr hg, fun s hs hsp hlab => ?_⟩
    exact (hin s hs hsp.le).ne' ((lab_eq_neg_one_iff h hsp).mp hlab)
  · refine .inr ⟨hn, fun s hs hlab => ?_⟩
    exact (hin s hs.le).ne' ((lab_eq_neg_one_iff h hs).mp hlab)

/-- An answer with a property that at most one value has, or none where no value has it, is the value with the property. -/
theorem eq_some_iff_of_unique {o : Option Nat} {P : Nat → Prop} (hunique : ∀ {m m'}, P m → P m' → m = m')
    (hcases : (∃ m, o = some m ∧ P m) ∨ (o = none ∧ ∀ m, ¬ P m)) {m : Nat} : o = some m ↔ P m := by
  rcases hcases with ⟨m', rfl, hm'⟩ | ⟨rfl, hnone⟩
  · rw [Option.some_inj]
    exact ⟨fun he => he ▸ hm', hunique hm'⟩
  · exact iff_of_false nofun (hnone m)

theorem matchFwd_eq_some_iff {m : Nat} : matchFwd prog len p = some m ↔ LeastBalance prog len p m :=
  eq_some_iff_of_unique LeastBalance.unique <| (matchFwd_balance_cases prog len p).imp_right
    fun ⟨hn, hnone⟩ => ⟨hn, fun m ⟨hlt, hlen, hbal, _⟩ => hnone m hlt hlen hbal⟩

theorem matchFwd_eq_none_iff : matchFwd prog len p = none ↔ ∀ s, p < s → s < len → bal prog p s ≠ -1 := by
  rcases matchFwd_balance_cases prog len p with ⟨m, hm, hlt, hlen, hbal, _⟩ | ⟨hn, hnone⟩
  · rw [hm]
    exact ⟨nofun, fun hnone => absurd hbal (hnone m hlt hlen)⟩
  · exact iff_of_true hn hnone

theorem matchBwd_eq_some_iff {m : Nat} : matchBwd prog p = some m ↔ GreatestBalance prog p m :=
  eq_some_iff_of_unique GreatestBalance.unique <| (matchBwd_balance_cases prog p).imp_right
    fun ⟨hn, hnone⟩ => ⟨hn, fun m ⟨hlt, hlab, _⟩ => hnone m hlt hlab⟩

theorem matchBwd_eq_none_iff : matchBwd prog p = none ↔ ∀ s, s < p → lab prog s p ≠ -1 := by
  rcases matchBwd_balance_cases prog p with ⟨m, hm, hlt, hlab, _⟩ | ⟨hn, hnone⟩
  · rw [hm]
    exact ⟨nofun, fun hnone => absurd hlab (hnone m hlt)⟩
  · exact iff_of_true hn hnone

end BracketHeight

/-! ## Open brackets and matched pairs (R128, R129) -/

section BracketPairs

variable {prog : Memory 8} {a b len m p : Nat}

/-- A `[` at `a` whose `]` has not come before position `p`: the height has stayed above what it was at `a`. -/
structure OpenAt (prog : Memory 8) (p a : Nat) : Prop where
  before : a < p
  above : StaysAbove prog (height prog a) a p

/-- Positions `a` and `b` are matched: `a` is open at `b`, and the character at `b` brings the height back. -/
structure BracketPair (prog : Memory 8) (a b : Nat) : Prop where
  opened : OpenAt prog b a
  back : height prog (b + 1) = height prog a

theorem OpenAt.height_lt (h : OpenAt prog p a) : height prog a < height prog p := h.above p h.before le_rfl

/-- After an open position the height has stayed above the one there. -/
theorem OpenAt.height_lt_of_lt (h : OpenAt prog p a) (hab : a < b) (hb : b ≤ p) : height prog a < height prog b :=
  h.above b hab hb

theorem BracketPair.closing_unique {b' : Nat} (h : BracketPair prog a b) (h' : BracketPair prog a b') : b = b' := by
  obtain ⟨⟨hlt, hin⟩, hback⟩ := h
  obtain ⟨⟨hlt', hin'⟩, hback'⟩ := h'
  exact le_antisymm (le_of_not_gt fun hb => (hin (b' + 1) (by omega) hb).ne' hback')
    (le_of_not_gt fun hb => (hin' (b + 1) (by omega) hb).ne' hback)

theorem BracketPair.opening_unique {a' : Nat} (h : BracketPair prog a b) (h' : BracketPair prog a' b) : a = a' := by
  obtain ⟨hopen, hback⟩ := h
  obtain ⟨hopen', hback'⟩ := h'
  exact le_antisymm (le_of_not_gt fun ha => (hopen'.height_lt_of_lt ha hopen.before.le).ne (hback'.symm.trans hback))
    (le_of_not_gt fun ha => (hopen.height_lt_of_lt ha hopen'.before.le).ne (hback.symm.trans hback'))

/-- At a `[` the forward scan finds the position it is matched with, or the `[` stays open to the end of the program. -/
theorem matchFwd_open_cases (len : Nat) (ha : prog.read a = opLoop) :
    (∃ b, matchFwd prog len a = some b ∧ b < len ∧ BracketPair prog a b) ∨
    (matchFwd prog len a = none ∧ StaysAbove prog (height prog a) a len) := by
  rcases matchFwd_cases len (height_succ_open ha) with ⟨b, hb, hlt, hlen, hback, hin⟩ | ⟨hn, hin⟩
  · exact .inl ⟨b, hb, hlen, ⟨hlt, hin⟩, hback⟩
  · exact .inr ⟨hn, hin⟩

/-- At a `]` the backward scan finds the position it is matched with, or the height has never been as low as after the `]`. -/
theorem matchBwd_close_cases (hb : prog.read b = opEndloop) :
    (∃ a, matchBwd prog b = some a ∧ BracketPair prog a b) ∨
    (matchBwd prog b = none ∧ ∀ n, n ≤ b → height prog (b + 1) < height prog n) := by
  have hclose := height_succ_close hb
  rcases matchBwd_cases (prog := prog) (g := height prog (b + 1)) (p := b) (by omega) with
    ⟨a, ha, hlt, hback, hin⟩ | ⟨hn, hin⟩
  · exact .inl ⟨a, ha, ⟨hlt, hback ▸ hin⟩, hback.symm⟩
  · exact .inr ⟨hn, hin⟩

theorem matchFwd_eq_some_iff_pair (ha : prog.read a = opLoop) :
    matchFwd prog len a = some b ↔ b < len ∧ BracketPair prog a b :=
  eq_some_iff_of_unique (P := fun b => b < len ∧ BracketPair prog a b) (fun h h' => h.2.closing_unique h'.2) <|
    (matchFwd_open_cases len ha).imp_right fun ⟨hn, hin⟩ => ⟨hn, fun b ⟨hlen, hopen, hback⟩ =>
      (hin (b + 1) (Nat.lt_succ_of_lt hopen.before) hlen).ne' hback⟩

theorem matchBwd_eq_some_iff_pair (hb : prog.read b = opEndloop) :
    matchBwd prog b = some a ↔ BracketPair prog a b :=
  eq_some_iff_of_unique BracketPair.opening_unique <| (matchBwd_close_cases hb).imp_right
    fun ⟨hn, hin⟩ => ⟨hn, fun a ⟨hopen, hback⟩ => (hin a hopen.before.le).ne hback⟩

/-- The two scans invert each other on brackets: both find the matched pair. -/
theorem matchFwd_eq_some_iff_matchBwd (hlen : b < len) (ha : prog.read a = opLoop) (hb : prog.read b = opEndloop) :
    matchFwd prog len a = some b ↔ matchBwd prog b = some a :=
  calc matchFwd prog len a = some b
    _ ↔ b < len ∧ BracketPair prog a b := matchFwd_eq_some_iff_pair ha
    _ ↔ BracketPair prog a b := and_iff_right hlen
    _ ↔ matchBwd prog b = some a := (matchBwd_eq_some_iff_pair hb).symm

/-- In a well-formed program every `[` has a forward match, whose backward match it is. -/
theorem wellFormedProgram.forward_match (h : wellFormedProgram prog len) (hp : p < len) (ho : prog.read p = opLoop) :
    ∃ m, matchFwd prog len p = some m ∧ matchBwd prog m = some p := by
  obtain ⟨hnonneg, hend⟩ := wellFormedProgram_iff.mp h
  rcases matchFwd_open_cases len ho with ⟨m, hm, _⟩ | ⟨_, hin⟩
  · obtain ⟨_, hlen, hc⟩ := matchFwd_some hm
    exact ⟨m, hm, (matchFwd_eq_some_iff_matchBwd hlen ho hc).mp hm⟩
  · have hopen : height prog p < height prog len := hin len hp le_rfl
    have hzero := hnonneg p hp.le
    omega

/-- In a well-formed program every `]` has a backward match, whose forward match it is. -/
theorem wellFormedProgram.backward_match (h : wellFormedProgram prog len) (hp : p < len) (hc : prog.read p = opEndloop) :
    ∃ m, matchBwd prog p = some m ∧ matchFwd prog len m = some p := by
  obtain ⟨hnonneg, _⟩ := wellFormedProgram_iff.mp h
  rcases matchBwd_close_cases hc with ⟨m, hm, _⟩ | ⟨_, hin⟩
  · exact ⟨m, hm, (matchFwd_eq_some_iff_matchBwd hp (read_of_matchBwd hm) hc).mpr hm⟩
  · have hbelow : height prog (p + 1) < height prog 0 := hin 0 p.zero_le
    have hzero := hnonneg (p + 1) hp
    rw [height_zero] at hbelow
    omega

end BracketPairs

/-! ## The jump table (R127): its pre-pass closes, at each `]`, the pair that the backward scan finds there -/

section Table

variable {prog : Memory 8} {a b p left m : Nat} {opened : List Nat} {table : List (Nat × Nat)} {o : Option Nat}

/-- The list of the pre-pass: the positions open at `p`, the latest first. -/
structure OpenStack (prog : Memory 8) (p : Nat) (opened : List Nat) : Prop where
  latestFirst : opened.Pairwise (· > ·)
  mem_iff : ∀ a, a ∈ opened ↔ OpenAt prog p a

theorem OpenStack.nil (prog : Memory 8) : OpenStack prog 0 [] :=
  ⟨.nil, fun a => ⟨nofun, fun h => absurd h.before a.not_lt_zero⟩⟩

/-- Open one position on: open before or at the last position, and below the height now reached. -/
theorem openAt_succ : OpenAt prog (p + 1) a ↔ (a = p ∨ OpenAt prog p a) ∧ height prog a < height prog (p + 1) := by
  constructor
  · intro h
    have hle : a ≤ p := Nat.le_of_lt_succ h.before
    refine ⟨hle.eq_or_lt.imp_right fun hlt => ⟨hlt, fun n hl hn => ?_⟩, h.height_lt⟩
    exact h.above n hl (Nat.le_succ_of_le hn)
  · rintro ⟨rfl | h, hlt⟩
    · exact ⟨a.lt_succ_self, .succ (fun n hl hh => by omega) hlt⟩
    · exact ⟨h.before.trans p.lt_succ_self, h.above.succ hlt⟩

/-- A `[` is pushed. -/
theorem OpenStack.push (h : OpenStack prog p opened) (hp : prog.read p = opLoop) :
    OpenStack prog (p + 1) (p :: opened) := by
  have hup := height_succ_open hp
  refine ⟨List.pairwise_cons.mpr ⟨fun a ha => ((h.mem_iff a).mp ha).before, h.latestFirst⟩, fun a => ?_⟩
  rw [List.mem_cons, h.mem_iff, openAt_succ]
  refine ⟨fun ha => ⟨ha, ?_⟩, And.left⟩
  rcases ha with rfl | ha
  · omega
  · have := ha.height_lt
    omega

/-- A character that is no bracket leaves the list as it is. -/
theorem OpenStack.skip (h : OpenStack prog p opened) (ho : prog.read p ≠ opLoop) (hc : prog.read p ≠ opEndloop) :
    OpenStack prog (p + 1) opened := by
  refine ⟨h.latestFirst, fun a => ?_⟩
  rw [h.mem_iff, openAt_succ, height_succ_other ho hc]
  refine ⟨fun ha => ⟨.inr ha, ha.height_lt⟩, ?_⟩
  rintro ⟨rfl | ha, hlt⟩
  · exact absurd hlt (lt_irrefl _)
  · exact ha

/-- At a `]` the backward scan finds the latest open position, or there is none. -/
theorem OpenStack.head?_eq_matchBwd (h : OpenStack prog p opened) (hp : prog.read p = opEndloop) :
    opened.head? = matchBwd prog p := by
  have hdown := height_succ_close hp
  cases opened with
  | nil =>
    rcases matchBwd_close_cases hp with ⟨a, _, hopen, _⟩ | ⟨hn, _⟩
    · exact absurd ((h.mem_iff a).mpr hopen) List.not_mem_nil
    · exact hn.symm
  | cons o rest =>
    have ho : OpenAt prog p o := (h.mem_iff o).mp List.mem_cons_self
    have hlt := ho.height_lt
    obtain ⟨hlatest, _⟩ := List.pairwise_cons.mp h.latestFirst
    rcases matchBwd_close_cases hp with ⟨a, ha, hopen, hback⟩ | ⟨_, hin⟩
    · rcases List.mem_cons.mp ((h.mem_iff a).mpr hopen) with rfl | hrest
      · exact ha.symm
      · have hbetween := hopen.height_lt_of_lt (hlatest a hrest) ho.before.le
        omega
    · have hbetween := hin o ho.before.le
      omega

/-- A `]` pops the position that it closes. -/
theorem OpenStack.pop (h : OpenStack prog p opened) (hp : prog.read p = opEndloop) :
    OpenStack prog (p + 1) opened.tail := by
  have hdown := height_succ_close hp
  have hhead := h.head?_eq_matchBwd hp
  have hclosed : ∀ a, OpenAt prog (p + 1) a ↔ a ∈ opened ∧ height prog a < height prog (p + 1) := fun a => by
    rw [openAt_succ, h.mem_iff]
    refine and_congr_left fun hlt => or_iff_right ?_
    rintro rfl
    omega
  refine ⟨h.latestFirst.tail, fun a => ?_⟩
  rw [hclosed]
  cases opened with
  | nil => simp
  | cons o rest =>
    obtain ⟨hopen, hback⟩ := (matchBwd_eq_some_iff_pair hp).mp hhead.symm
    obtain ⟨hlatest, _⟩ := List.pairwise_cons.mp h.latestFirst
    constructor
    · intro hrest
      have hmem : a ∈ o :: rest := List.mem_cons_of_mem o hrest
      exact ⟨hmem, hback ▸ ((h.mem_iff a).mp hmem).height_lt_of_lt (hlatest a hrest) hopen.before.le⟩
    · rintro ⟨hmem, hlt⟩
      refine (List.mem_cons.mp hmem).resolve_left ?_
      rintro rfl
      exact hlt.ne hback.symm

/-- The pair that the character at `b` closes, if any, as the backward scan gives it. -/
def pairClosedAt (prog : Memory 8) (b : Nat) : List (Nat × Nat) :=
  if prog.read b = opEndloop then (matchBwd prog b).toList.map fun a => (a, b) else []

theorem mem_pairClosedAt {c : Nat} :
    (a, c) ∈ pairClosedAt prog b ↔ c = b ∧ prog.read b = opEndloop ∧ matchBwd prog b = some a := by
  by_cases hb : prog.read b = opEndloop
  · simp [pairClosedAt, hb, and_comm, eq_comm (a := c)]
  · simp [pairClosedAt, hb]

/-- The pre-pass from `p` lists the pairs closed from `p` on. -/
theorem jumpTableFrom_eq (h : OpenStack prog p opened) :
    jumpTableFrom prog left p opened = (List.range' p left).flatMap (pairClosedAt prog) := by
  induction left generalizing p opened with
  | zero => rfl
  | succ left ih =>
    rw [jumpTableFrom_succ, List.range'_succ, List.flatMap_cons]
    split
    · next ho =>
      have hnot : prog.read p ≠ opEndloop := by rw [ho]; decide
      rw [ih (h.push ho), pairClosedAt, if_neg hnot, List.nil_append]
    · next ho =>
      split
      · next hc => rw [ih (h.pop hc), h.head?_eq_matchBwd hc, pairClosedAt, if_pos hc]
      · next hc => rw [ih (h.skip ho hc), pairClosedAt, if_neg hc, List.nil_append]

/-- The table holds the pairs of the backward scan at the `]` of the program, and no others. -/
theorem mem_jumpTable {len : Nat} :
    (a, b) ∈ jumpTable prog len ↔ b < len ∧ prog.read b = opEndloop ∧ matchBwd prog b = some a := by
  rw [jumpTable, jumpTableFrom_eq (.nil prog), List.mem_flatMap]
  constructor
  · rintro ⟨c, hc, hmem⟩
    obtain ⟨rfl, hread, hm⟩ := mem_pairClosedAt.mp hmem
    exact ⟨by simpa using hc, hread, hm⟩
  · rintro ⟨hlt, hread, hm⟩
    exact ⟨b, by simpa using hlt, mem_pairClosedAt.mpr ⟨rfl, hread, hm⟩⟩

/-- Where the values listed under key `p` are those of one answer, looking up `p` gives that answer. -/
theorem find?_key_map_eq {key val : Nat × Nat → Nat} (h : ∀ m, (∃ e ∈ table, key e = p ∧ val e = m) ↔ o = some m) :
    (table.find? fun e => key e == p).map val = o := by
  cases hfind : table.find? fun e => key e == p with
  | none =>
    refine (Option.eq_none_iff_forall_ne_some.mpr fun m hm => ?_).symm
    obtain ⟨e, he, hkey, _⟩ := (h m).mpr hm
    simpa [hkey] using List.find?_eq_none.mp hfind e he
  | some e =>
    have hkey : key e = p := by simpa using List.find?_some hfind
    exact ((h (val e)).mp ⟨e, List.mem_of_find?_eq_some hfind, hkey, rfl⟩).symm

theorem tableFwd_eq (h : ∀ m, (p, m) ∈ table ↔ o = some m) : tableFwd table p = o :=
  find?_key_map_eq fun m => by simpa using h m

theorem tableBwd_eq (h : ∀ m, (m, p) ∈ table ↔ o = some m) : tableBwd table p = o :=
  find?_key_map_eq fun m => by simpa using h m

theorem tableBwd_jumpTable {len : Nat} (hp : p < len) (hc : prog.read p = opEndloop) :
    tableBwd (jumpTable prog len) p = matchBwd prog p :=
  tableBwd_eq fun _ => mem_jumpTable.trans (by simp [hp, hc])

theorem tableFwd_jumpTable {len : Nat} (ho : prog.read p = opLoop) :
    tableFwd (jumpTable prog len) p = matchFwd prog len p := by
  refine tableFwd_eq fun m => mem_jumpTable.trans ?_
  constructor
  · rintro ⟨hlen, hc, hm⟩
    exact (matchFwd_eq_some_iff_matchBwd hlen ho hc).mpr hm
  · intro hm
    obtain ⟨_, hlen, hc⟩ := matchFwd_some hm
    exact ⟨hlen, hc, (matchFwd_eq_some_iff_matchBwd hlen ho hc).mp hm⟩

end Table

/-! ## The bracket faults of an execution, and the brackets one by one -/

section BracketFaults

variable {c : Config} {s t : State c}

theorem eq_encode_of_decode {b : Byte} {i : Instr} (h : decode b = i) : b = encode i :=
  h ▸ (decode_wf_and_encode_decode b).2.symm

/-- Once the engine has been started, FAULT_KIND is set in the state FAULT only. -/
theorem State.Inv.status_of_faultKind {kind : FaultKind} (h : s.Inv) (hs : s.status ≠ .idle)
    (hk : s.faultKind = some kind) : s.status = .fault := by
  obtain ⟨_, _, _, _, _, hrunning, hdone, _⟩ := h
  cases hstatus : s.status with
  | idle => exact absurd hstatus hs
  | running =>
    obtain ⟨_, hnone, _⟩ := hrunning hstatus
    simp [hnone] at hk
  | done =>
    obtain ⟨_, hnone, _⟩ := hdone hstatus
    simp [hnone] at hk
  | fault => rfl

/-- A recorded fault has a row of R141, and its instruction stands inside the program. -/
theorem State.Inv.faultExplained {kind : FaultKind} (h : s.Inv) (hs : s.status ≠ .idle)
    (hk : s.faultKind = some kind) : s.pc < s.progLen ∧ s.faultExplained = true := by
  have hfault := h.status_of_faultKind hs hk
  obtain ⟨_, _, _, _, _, _, _, hrow⟩ := h
  obtain ⟨hpc, _, hexplained, _⟩ := hrow hfault
  exact ⟨hpc, hexplained⟩

/-- A recorded MissingClosingBracket stands at a `[` that has no match. -/
theorem State.Inv.no_match_of_missingClosing (h : s.Inv) (hs : s.status ≠ .idle)
    (hk : s.faultKind = some .missingClosing) :
    s.pc < s.progLen ∧ s.prog.read s.pc = opLoop ∧ matchFwd s.prog s.progLen s.pc = none := by
  obtain ⟨hpc, hrow⟩ := h.faultExplained hs hk
  unfold State.faultExplained at hrow
  cases hdir : s.faultDir with
  | left =>
    simp only [hk, hdir, Bool.and_eq_true, decide_eq_true_eq, Option.isNone_iff_eq_none] at hrow
    obtain ⟨⟨hi, _⟩, hm⟩ := hrow
    exact ⟨hpc, eq_encode_of_decode hi, hm⟩
  | right => simp [hk, hdir] at hrow

/-- A recorded MissingOpeningBracket stands at a `]` that has no match. -/
theorem State.Inv.no_match_of_missingOpening (h : s.Inv) (hs : s.status ≠ .idle)
    (hk : s.faultKind = some .missingOpening) :
    s.pc < s.progLen ∧ s.prog.read s.pc = opEndloop ∧ matchBwd s.prog s.pc = none := by
  obtain ⟨hpc, hrow⟩ := h.faultExplained hs hk
  unfold State.faultExplained at hrow
  cases hdir : s.faultDir with
  | left =>
    simp only [hk, hdir, Bool.and_eq_true, decide_eq_true_eq, Option.isNone_iff_eq_none] at hrow
    obtain ⟨⟨hi, _⟩, hm⟩ := hrow
    exact ⟨hpc, eq_encode_of_decode hi, hm⟩
  | right => simp [hk, hdir] at hrow

/-- A started execution of a well-formed program, in a state that meets the invariant of R31. -/
structure State.WellFormedExecution (s : State c) : Prop where
  inv : s.Inv
  started : s.status ≠ .idle
  wellFormed : wellFormedProgram s.prog s.progLen

/-- Only `rst` leads back to IDLE. -/
theorem stepAt_keeps_started (hs : s.status ≠ .idle) (ht : stepAt s = .next t) : t.status ≠ .idle := by
  rcases stepBy_next ht with ⟨_, rfl⟩ | ⟨_, _, rfl⟩ | ⟨_, _, he⟩
  · exact hs
  · exact nofun
  · rcases execAt_keeps_status_or_raises he with hk | ⟨r, _, rfl⟩
    · rwa [hk]
    · exact nofun

theorem stepAt_keeps_wellFormedExecution (h : s.WellFormedExecution) (ht : stepAt s = .next t) :
    t.WellFormedExecution := by
  obtain ⟨_, _, hprog, hlen⟩ := stepAt_extends ht
  exact ⟨stepAt_keeps_inv h.inv ht, stepAt_keeps_started h.started ht, hprog ▸ hlen ▸ h.wellFormed⟩

theorem State.WellFormedExecution.faultKind_ne_missingClosing (h : s.WellFormedExecution) :
    s.faultKind ≠ some .missingClosing := by
  intro hk
  obtain ⟨hpc, hread, hnone⟩ := h.inv.no_match_of_missingClosing h.started hk
  obtain ⟨m, hm, _⟩ := h.wellFormed.forward_match hpc hread
  simp [hnone] at hm

theorem State.WellFormedExecution.faultKind_ne_missingOpening (h : s.WellFormedExecution) :
    s.faultKind ≠ some .missingOpening := by
  intro hk
  obtain ⟨hpc, hread, hnone⟩ := h.inv.no_match_of_missingOpening h.started hk
  obtain ⟨m, hm, _⟩ := h.wellFormed.backward_match hpc hread
  simp [hnone] at hm

/-- A `[` with a match goes past the match on a zero cell and into the body on a nonzero one. -/
theorem execLoop_of_matched {m : Nat} (hd : s.dp < c.tapeLen) (hm : matchFwd s.prog s.progLen s.pc = some m) :
    execLoop s = .next { s with pc := if s.cell = 0#c.cellW then m + 1 else s.pc + 1 } := by
  split
  · next hz => exact execLoop_of_match hd hz hm
  · next hz => exact execLoop_of_ne_zero hd hz

/-- A `]` with a match goes on past itself on a zero cell and into the body on a nonzero one. -/
theorem execEndloop_of_matched {m : Nat} (hd : s.dp < c.tapeLen) (hm : matchBwd s.prog s.pc = some m) :
    execEndloop s = .next { s with pc := if s.cell = 0#c.cellW then s.pc + 1 else m + 1 } := by
  split
  · next hz => exact execEndloop_of_zero hd hz
  · next hz => exact execEndloop_of_match hd hz hm

/-- Right after a `[` the backward scan finds that `[`. -/
theorem matchBwd_succ_of_open {prog : Memory 8} {p : Nat} (h : prog.read p = opLoop) : matchBwd prog (p + 1) = some p := by
  simp [matchBwd, scanBwd_succ, h]

end BracketFaults

end Sys2Proof.Machine

/-! ## The statements of the loop -/

section LoopStatements

open Sys2Proof Sys2Proof.Machine

/-- Settles O48: a recorded bracket fault would stand at a bracket without a match, and a well-formed program has none. -/
theorem wellFormedProgramsNeverBracketFault : Obligations.WellFormedProgramsNeverBracketFault := by
  unfold Obligations.WellFormedProgramsNeverBracketFault
  refine ⟨fun s u k hinv hs hwf hu => ?_, fun _ _ _ hwf hp => ⟨hwf.forward_match hp, hwf.backward_match hp⟩⟩
  have hstep (t v : State) (h : t.WellFormedExecution) (hv : step t = .next v) : v.WellFormedExecution :=
    stepAt_keeps_wellFormedExecution h (step_eq_stepAt t ▸ hv)
  have hexec : u.WellFormedExecution := run_keeps hstep k ⟨hinv, by simp [hs], hwf⟩ hu
  exact ⟨hexec.faultKind_ne_missingClosing, hexec.faultKind_ne_missingOpening⟩

/-- Settles O24: the match of the `]` is the position before it, so the jump lands on the `]` itself. -/
theorem emptyLoopBodyRepeatsForEver : Obligations.EmptyLoopBodyRepeatsForEver := by
  unfold Obligations.EmptyLoopBodyRepeatsForEver
  intro s p k hs hpc hp hopen hclose hd hz
  have hmatch : matchBwd s.prog s.pc = some p := hpc ▸ matchBwd_succ_of_open (eq_encode_of_decode hopen)
  refine run_of_step_self ?_ k
  rw [step_eq_exec hs hp, hpc, hclose, exec_endloop, execEndloop_of_match hd hz hmatch, State.jump, ← hpc]

/-- Settles O45: least position and exhaustion as the scan's cases; the position found holds a `]`. -/
theorem forwardMatchIsLeastBalance : Obligations.ForwardMatchIsLeastBalance := by
  unfold Obligations.ForwardMatchIsLeastBalance
  exact fun _ _ _ => ⟨fun _ => matchFwd_eq_some_iff, matchFwd_eq_none_iff, fun _ => read_of_matchFwd⟩

/-- Settles O46: greatest position and exhaustion as the scan's cases; the position found holds a `[`. -/
theorem backwardMatchIsGreatestBalance : Obligations.BackwardMatchIsGreatestBalance := by
  unfold Obligations.BackwardMatchIsGreatestBalance
  exact fun _ _ => ⟨fun _ => matchBwd_eq_some_iff, matchBwd_eq_none_iff, fun _ => read_of_matchBwd⟩

/-- Settles O47: both scans find the pair whose characters leave the height as it was. -/
theorem bracketMatchesAreInverse : Obligations.BracketMatchesAreInverse := by
  unfold Obligations.BracketMatchesAreInverse
  exact fun _ _ _ _ => matchFwd_eq_some_iff_matchBwd

/-- Settles O49: the backward match of the `]` is the `[`, so each bracket's jump is known from the pair. -/
theorem matchedPairGoesToBodyOrPast : Obligations.MatchedPairGoesToBodyOrPast := by
  unfold Obligations.MatchedPairGoesToBodyOrPast
  intro s a b hd hb ho hc hm
  constructor
  · rintro rfl
    exact execLoop_of_matched hd hm
  · rintro rfl
    exact execEndloop_of_matched hd ((matchFwd_eq_some_iff_matchBwd hb ho hc).mp hm)

/-- Settles O50: the table holds the pairs of the backward scan, whose inverse is the forward scan. -/
theorem jumpTableAgreesWithScan : Obligations.JumpTableAgreesWithScan := by
  unfold Obligations.JumpTableAgreesWithScan
  exact fun _ _ _ hp => ⟨tableFwd_jumpTable, tableBwd_jumpTable hp⟩

/-- Settles O20: LOOP by the cell and, on a zero one, by the answer of the forward scan. -/
theorem loopEntersSkipsOrFaults : Obligations.LoopEntersSkipsOrFaults := by
  unfold Obligations.LoopEntersSkipsOrFaults
  exact fun _ hd => ⟨execLoop_of_ne_zero hd, fun hz _ => execLoop_of_match hd hz, execLoop_of_no_match hd⟩

/-- Settles O21: ENDLOOP by the cell and, on a nonzero one, by the answer of the backward scan. -/
theorem endloopLeavesRepeatsOrFaults : Obligations.EndloopLeavesRepeatsOrFaults := by
  unfold Obligations.EndloopLeavesRepeatsOrFaults
  exact fun _ hd => ⟨execEndloop_of_zero hd, fun hz _ => execEndloop_of_match hd hz, execEndloop_of_no_match hd⟩

end LoopStatements

namespace Sys2Proof.Machine

/-! ## Which instruction faults, and with what report (spec/60_exceptions.md R141, R147) -/

section FaultTable

variable {c : Config} {i : Instr} {s t : State c} {kind : FaultKind} {dir : Direction}

/-- The table of R141, one constructor per row: the instruction meets the condition for a fault of this kind and direction. A
bracket fault records the direction left (log 18). -/
inductive State.FaultRow (s : State c) : Instr → FaultKind → Direction → Prop
  | right (last : s.dp = c.tapeLen - 1) : s.FaultRow .right .outOfBounds .right
  | left (first : s.dp = 0) : s.FaultRow .left .outOfBounds .left
  | loop (zero : s.cell = 0#c.cellW) (exhausted : matchFwd s.prog s.progLen s.pc = none) :
      s.FaultRow .loop .missingClosing .left
  | endloop (nonzero : s.cell ≠ 0#c.cellW) (exhausted : matchBwd s.prog s.pc = none) :
      s.FaultRow .endloop .missingOpening .left

/-- An instruction has at most one row, so its fault's kind and direction are determined. -/
theorem State.FaultRow.unique {kind' : FaultKind} {dir' : Direction} (h : s.FaultRow i kind dir)
    (h' : s.FaultRow i kind' dir') : kind = kind' ∧ dir = dir' := by
  cases h <;> cases h' <;> exact ⟨rfl, rfl⟩

theorem State.faultRow_outOfBounds_right_iff :
    s.FaultRow i .outOfBounds .right ↔ i = .right ∧ s.dp = c.tapeLen - 1 :=
  ⟨fun | .right hd => ⟨rfl, hd⟩, fun ⟨hi, hd⟩ => hi ▸ .right hd⟩

theorem State.faultRow_outOfBounds_left_iff : s.FaultRow i .outOfBounds .left ↔ i = .left ∧ s.dp = 0 :=
  ⟨fun | .left hd => ⟨rfl, hd⟩, fun ⟨hi, hd⟩ => hi ▸ .left hd⟩

theorem State.exists_faultRow_missingClosing_iff : (∃ dir, s.FaultRow i .missingClosing dir) ↔
    i = .loop ∧ s.cell = 0#c.cellW ∧ matchFwd s.prog s.progLen s.pc = none := by
  constructor
  · rintro ⟨dir, h⟩
    cases h with
    | loop hz hm => exact ⟨rfl, hz, hm⟩
  · rintro ⟨rfl, hz, hm⟩
    exact ⟨.left, .loop hz hm⟩

theorem State.exists_faultRow_missingOpening_iff : (∃ dir, s.FaultRow i .missingOpening dir) ↔
    i = .endloop ∧ s.cell ≠ 0#c.cellW ∧ matchBwd s.prog s.pc = none := by
  constructor
  · rintro ⟨dir, h⟩
    cases h with
    | endloop hz hm => exact ⟨rfl, hz, hm⟩
  · rintro ⟨rfl, hz, hm⟩
    exact ⟨.left, .endloop hz hm⟩

/-- What a fault entry writes (R147): STATUS, ERRLOG and the three fault registers. -/
structure FaultPart where
  status : Status
  errlog : List FaultReport
  kind : Option FaultKind
  pos : Nat
  dir : Direction

/-- The part of a state that a fault entry writes. -/
def State.faultPart (s : State c) : FaultPart := ⟨s.status, s.errlog, s.faultKind, s.faultPos, s.faultDir⟩

/-- From `s` to `t`, the instruction met no row's condition and wrote nothing a fault entry writes, or it met a row's condition
and entered that row's fault at its own position. -/
inductive FaultEffect (i : Instr) (s t : State c) : Prop
  | keeps (clear : ∀ kind dir, ¬ s.FaultRow i kind dir) (same : t.faultPart = s.faultPart)
  | raises (kind : FaultKind) (dir : Direction) (row : s.FaultRow i kind dir) (entry : t = s.raise ⟨kind, s.pc, dir⟩)

/-- The fault part under every instruction. -/
theorem execAt_faultEffect (ht : execAt i s = .next t) : FaultEffect i s t := by
  cases i with
  | right =>
    rcases execRight_cases s with ⟨hd, he⟩ | ⟨hd, he⟩ <;> cases he.symm.trans ht
    · exact .keeps (fun | _, _, .right hd' => hd hd') rfl
    · exact .raises _ _ (.right hd) rfl
  | left =>
    rcases execLeft_cases s with ⟨hd, he⟩ | ⟨hd, he⟩ <;> cases he.symm.trans ht
    · exact .keeps (fun | _, _, .left hd' => hd hd') rfl
    · exact .raises _ _ (.left hd) rfl
  | inc =>
    obtain ⟨_, rfl⟩ := execInc_next ht
    exact .keeps nofun rfl
  | dec =>
    obtain ⟨_, rfl⟩ := execDec_next ht
    exact .keeps nofun rfl
  | out =>
    obtain ⟨_, ⟨_, rfl⟩ | ⟨_, rfl⟩⟩ := execOut_next ht <;> exact .keeps nofun rfl
  | inp =>
    obtain ⟨_, ⟨b, _, rfl⟩ | ⟨_, rfl⟩ | ⟨_, rfl⟩⟩ := execIn_next ht <;> exact .keeps nofun rfl
  | loop =>
    obtain ⟨_, ⟨hz, rfl⟩ | ⟨_, m, hm, rfl⟩ | ⟨hz, hm, rfl⟩⟩ := execLoop_next ht
    · exact .keeps (fun | _, _, .loop hz' _ => hz hz') rfl
    · exact .keeps (fun | _, _, .loop _ hm' => nomatch hm.symm.trans hm') rfl
    · exact .raises _ _ (.loop hz hm) rfl
  | endloop =>
    obtain ⟨_, ⟨hz, rfl⟩ | ⟨_, m, hm, rfl⟩ | ⟨hz, hm, rfl⟩⟩ := execEndloop_next ht
    · exact .keeps (fun | _, _, .endloop hz' _ => hz' hz) rfl
    · exact .keeps (fun | _, _, .endloop _ hm' => nomatch hm.symm.trans hm') rfl
    · exact .raises _ _ (.endloop hz hm) rfl
  | nop b =>
    obtain rfl := execNop_next b ht
    exact .keeps nofun rfl

/-- A RUNNING engine is in FAULT after the instruction, with this kind and direction, exactly when the condition of that row
holds. -/
theorem FaultEffect.fault_iff (h : FaultEffect i s t) (hs : s.status = .running) :
    t.status = .fault ∧ t.faultKind = some kind ∧ t.faultDir = dir ↔ s.FaultRow i kind dir := by
  cases h with
  | keeps clear same =>
    have hstatus : t.status = .running := (congrArg FaultPart.status same).trans hs
    simp [hstatus, clear]
  | raises kind' dir' row entry =>
    subst entry
    constructor
    · rintro ⟨_, hkind, hdir⟩
      obtain rfl : kind' = kind := Option.some.inj hkind
      obtain rfl : dir' = dir := hdir
      exact row
    · intro row'
      obtain ⟨rfl, rfl⟩ := row.unique row'
      exact ⟨rfl, rfl, rfl⟩

/-- The kind alone, whatever the recorded direction. -/
theorem FaultEffect.fault_kind_iff (h : FaultEffect i s t) (hs : s.status = .running) :
    t.status = .fault ∧ t.faultKind = some kind ↔ ∃ dir, s.FaultRow i kind dir := by
  simp [← h.fault_iff hs]

/-- After a fault entry the outcome is the reported kind. -/
@[simp] theorem State.raise_verdict (s : State c) (r : FaultReport) : (s.raise r).verdict = some (.failed r.kind) := rfl

/-- After a fault entry the engine stands still (log 7). -/
theorem stepBy_raise (run : Instr → State c → Host.Outcome (State c) Fault Refusal) (s : State c) (r : FaultReport) :
    stepBy run (s.raise r) = .next (s.raise r) :=
  stepBy_of_not_running run nofun

end FaultTable

end Sys2Proof.Machine

/-! ## The statements of the exceptions -/

section ExceptionStatements

open Sys2Proof Sys2Proof.Machine

/-- Settles O36: the instruction keeps what a fault entry writes, or its next state is a fault entry at its own position. -/
theorem faultEntryIsPrecise : Obligations.FaultEntryIsPrecise := by
  unfold Obligations.FaultEntryIsPrecise
  intro i s t hs ht
  cases execAt_faultEffect (exec_eq_execAt i s ▸ ht) with
  | keeps clear same =>
    simp only [State.faultPart, FaultPart.mk.injEq, hs] at same
    exact .inl same
  | raises kind dir row entry =>
    subst entry
    exact .inr ⟨kind, dir, rfl, State.raise_verdict s _, stepBy_raise exec s _⟩

/-- Settles O37: FAULT with a row's kind and direction exactly under that row's condition, for each of the four rows. -/
theorem faultsExactlyUnderTableConditions : Obligations.FaultsExactlyUnderTableConditions := by
  unfold Obligations.FaultsExactlyUnderTableConditions
  intro i s t hs ht
  have heff : FaultEffect i s t := execAt_faultEffect (exec_eq_execAt i s ▸ ht)
  exact ⟨(heff.fault_iff hs).trans State.faultRow_outOfBounds_right_iff,
    (heff.fault_iff hs).trans State.faultRow_outOfBounds_left_iff,
    (heff.fault_kind_iff hs).trans State.exists_faultRow_missingClosing_iff,
    (heff.fault_kind_iff hs).trans State.exists_faultRow_missingOpening_iff⟩

end ExceptionStatements

namespace Sys2Proof.Machine

/-! ## The answers of the host's start event -/

section StartEvent

variable {c : Config} {s : State c} {l : Launch}

theorem hostStart_of_running (hs : s.status = .running) : hostStart l s = .refused .startWhileRunning := if_pos hs

theorem hostStart_of_too_long (hs : s.status ≠ .running) (hlen : c.maxProgLen < l.program.length) :
    hostStart l s = .refused .programTooLong :=
  (if_neg hs).trans (if_pos hlen)

/-- The state answered does not depend on the state before (R170). -/
theorem hostStart_of_fits (hs : s.status ≠ .running) (hlen : l.program.length ≤ c.maxProgLen) :
    hostStart l s = .next (startState l) :=
  (if_neg hs).trans (if_neg hlen.not_gt)

end StartEvent

/-- The program memory a start event sets up holds the presented bytes. -/
theorem startState_prog_read {c : Config} (l : Launch) (i : Fin l.program.length) :
    (startState l : State c).prog.read i = l.program[i] := by
  simp [startState, Memory.read_ofList]

/-! ## A stream that goes on for ever with moves of one kind -/

section EndlessStream

variable {α : Type} {P : α → Prop}

/-- The listed moves and those repeated after them all satisfy `P`. -/
def Stream.Always (P : α → Prop) (k : Stream α) : Prop :=
  ∃ first rest, k.after = .repeats first rest ∧ ∀ m ∈ k.moves ++ first :: rest, P m

/-- The next move of such a stream satisfies `P`, and the stream after it is again such a stream. -/
theorem Stream.Always.next (seq : Nat → α) {k : Stream α} (h : k.Always P) :
    P (k.next seq).1 ∧ (k.next seq).2.Always P := by
  obtain ⟨moves, after⟩ := k
  obtain ⟨first, rest, rfl, hall⟩ := h
  cases moves with
  | nil =>
    have hmoves : ∀ m ∈ first :: rest, P m := hall
    refine ⟨hmoves first List.mem_cons_self, first, rest, rfl, fun m hm => hmoves m ?_⟩
    exact (List.mem_append.mp hm).elim (List.mem_cons_of_mem first) id
  | cons m moves =>
    exact ⟨hall m List.mem_cons_self, first, rest, rfl, fun n hn => hall n (List.mem_cons_of_mem m hn)⟩

/-- A wait, or a byte that is not zero. -/
def InMove.WaitOrNonzero (m : InMove) : Prop := m = .hold ∨ ∃ b, b ≠ 0 ∧ m = .deliver b

/-- `Stream.Always.next` at a request to the input source. -/
theorem InSource.poll_of_always {P : InMove → Prop} {k : InSource} (h : Stream.Always P k) :
    P k.poll.1 ∧ Stream.Always P k.poll.2 :=
  Stream.Always.next Config.inputAnswer h

end EndlessStream

/-! ## The loop `[,]` over such a source (R175 (a)) -/

section ReadLoop

variable {c : Config} {s : State c} {p : Nat}

/-- A nonzero byte gives a nonzero cell, truncation being able to give it back. -/
theorem cellOfByte_ne_zero {w : Nat} (hw : 8 ≤ w) {b : Byte} (hb : b ≠ 0) : cellOfByte w b ≠ 0#w := by
  intro hzero
  apply hb
  calc b
    _ = byteOfCell (cellOfByte w b) := (byteOfCell_cellOfByte hw b).symm
    _ = byteOfCell 0#w := by rw [hzero]
    _ = 0 := BitVec.setWidth_zero ..

/-- The backward scan passes over a byte that is no bracket. -/
theorem matchBwd_succ_of_other {prog : Memory 8} (ho : prog.read p ≠ opLoop) (hc : prog.read p ≠ opEndloop) :
    matchBwd prog (p + 1) = matchBwd prog p := by
  simp [matchBwd, scanBwd_succ, depthBwd_other ho hc]

theorem State.verdict_of_running (hs : s.status = .running) : s.verdict = none := by
  simp [State.verdict, hs]

/-- A running engine in the loop `[,]` whose `[` stands at `p`, with a source that waits or delivers nonzero bytes for ever: at
the `,`, or at the `]` with a nonzero cell. -/
structure State.InReadLoop (s : State c) (p : Nat) : Prop where
  running : s.status = .running
  inside : p + 2 < s.progLen
  opening : decode (s.prog.read p) = .loop
  reading : decode (s.prog.read (p + 1)) = .inp
  closing : decode (s.prog.read (p + 2)) = .endloop
  dp_lt : s.dp < c.tapeLen
  tape_wf : s.tape.wf = true
  source : Stream.Always InMove.WaitOrNonzero s.input
  position : s.pc = p + 1 ∨ s.pc = p + 2 ∧ s.cell ≠ 0#c.cellW

/-- The match of the `]` is the `[`: between them stands a `,`. -/
theorem State.InReadLoop.matchBwd_eq (h : s.InReadLoop p) : matchBwd s.prog (p + 2) = some p := by
  have hread : s.prog.read (p + 1) = opIn := eq_encode_of_decode h.reading
  have hpass : matchBwd s.prog (p + 2) = matchBwd s.prog (p + 1) :=
    matchBwd_succ_of_other (by rw [hread]; decide) (by rw [hread]; decide)
  exact hpass.trans (matchBwd_succ_of_open (eq_encode_of_decode h.opening))

/-- The `,` waits where it is, or goes on to the `]` with a nonzero cell. -/
theorem State.InReadLoop.execIn_goes_on (h : s.InReadLoop p) (hw : 8 ≤ c.cellW) (hpc : s.pc = p + 1) :
    ∃ t, execIn s = .next t ∧ t.InReadLoop p := by
  obtain ⟨hmove, hsource⟩ := InSource.poll_of_always h.source
  rcases hmove with hhold | ⟨b, hb, hdeliver⟩
  · exact ⟨_, execIn_of_hold h.dp_lt hhold, { h with source := hsource }⟩
  · have hcell := State.cell_putCell (s := { s with input := s.input.poll.2, inPos := s.inPos + 1 }) h.tape_wf
      (cellOfByte c.cellW b)
    have hnonzero := hcell.trans_ne (cellOfByte_ne_zero hw hb)
    exact ⟨_, execIn_of_deliver h.dp_lt hdeliver,
      { h with
        tape_wf := Memory.wf_write s.dp _ h.tape_wf
        source := hsource
        position := .inr ⟨congrArg (· + 1) hpc, hnonzero⟩ }⟩

/-- The `]` goes back to the `,`. -/
theorem State.InReadLoop.execEndloop_goes_on (h : s.InReadLoop p) (hpc : s.pc = p + 2) (hz : s.cell ≠ 0#c.cellW) :
    ∃ t, execEndloop s = .next t ∧ t.InReadLoop p :=
  ⟨_, execEndloop_of_match h.dp_lt hz (hpc ▸ h.matchBwd_eq), { h with position := .inl rfl }⟩

/-- No step leaves the loop. -/
theorem State.InReadLoop.step_goes_on {s : State} (h : s.InReadLoop p) : ∃ t, step s = .next t ∧ t.InReadLoop p := by
  have hp : p + 2 < s.progLen := h.inside
  rcases h.position with hpc | ⟨hpc, hz⟩
  · rw [step_eq_exec h.running (by omega), hpc, h.reading, exec_inp]
    exact h.execIn_goes_on (by decide) hpc
  · rw [step_eq_exec h.running (by omega), hpc, h.closing, exec_endloop]
    exact h.execEndloop_goes_on hpc hz

end ReadLoop

end Sys2Proof.Machine

/-! ## The statements of reset, the start event and runs without end -/

section ResetStatements

open Sys2Proof Sys2Proof.Machine

/-- Settles O6: from every state that is not RUNNING the one answer is the start state of what the host presents. -/
theorem startEventDefinesState : Obligations.StartEventDefinesState := by
  unfold Obligations.StartEventDefinesState
  intro l hlen
  exact ⟨startState l, fun _ hs => hostStart_of_fits hs hlen, Memory.read_nil, rfl, rfl, rfl, rfl, rfl, rfl,
    startState_prog_read l, rfl, rfl, rfl, rfl, rfl, rfl, rfl⟩

/-- Settles O11: the step of an engine that is not RUNNING answers the state itself, so every run does. -/
theorem haltedEngineStaysFrozen : Obligations.HaltedEngineStaysFrozen := by
  unfold Obligations.HaltedEngineStaysFrozen
  exact fun _ k hs => run_of_step_self (stepBy_of_not_running exec hs) k

/-- Settles O57: every step keeps the engine in the loop, at the `,` or at the `]` with a nonzero cell. -/
theorem loopOverEndlessInputNeverEnds : Obligations.LoopOverEndlessInputNeverEnds := by
  unfold Obligations.LoopOverEndlessInputNeverEnds
  intro s p k first rest hs hpc hp hopen hread hclose hd hwf hafter hmoves
  have hloop : s.InReadLoop p := ⟨hs, hp, hopen, hread, hclose, hd, hwf, ⟨first, rest, hafter, hmoves⟩, .inl hpc⟩
  obtain ⟨t, hrun, ht⟩ := run_goes_on (P := (State.InReadLoop · p)) (fun _ => State.InReadLoop.step_goes_on) k hloop
  exact ⟨t, hrun, ht.running, State.verdict_of_running ht.running⟩

/-- Settles O4: `rst` answers the state after reset, which is IDLE; an IDLE engine is not RUNNING. -/
theorem resetLeavesIdleEngine : Obligations.ResetLeavesIdleEngine := by
  unfold Obligations.ResetLeavesIdleEngine
  refine ⟨rfl, fun _ => rfl, fun s hs => stepBy_of_not_running exec ?_⟩
  simp [hs]

/-- Settles O7: the bound of this hardware's program counter, and STATUS, which the start event tests first. -/
theorem launchIsRefused : Obligations.LaunchIsRefused := by
  unfold Obligations.LaunchIsRefused
  exact ⟨fun _ _ => hostStart_of_too_long, fun _ _ => hostStart_of_running⟩

end ResetStatements
